-- ==== Sys2Proof/Word.lean ====
section
/-! DEFINITION. The two widths of the engine: 8-bit values (00_scope.md R9, 40_poly_transform.md R105) and 32-bit
register words (10_state.md R22). -/

namespace Sys2Proof

/-- An 8-bit value: a seed, a checksum, a data byte, a lookup-table entry or a command field (R85, R105). -/
abbrev Byte := BitVec 8

/-- A 32-bit register value or command word, or a data-memory address before it is cut to `ADDR_W` bits. -/
abbrev Word := BitVec 32

end Sys2Proof
end

