-- ==== Sys2Proof/Config.lean ====
section
/-! DEFINITION. What is fixed for a build (00_scope.md R9), and the model's free values. -/

namespace Sys2Proof

/-- The build-time strategy selector with its three values (00_scope.md R4). -/
inductive StrategySel where
  | speed
  | size
  | hardware
deriving DecidableEq, Repr

/-- The strategy of a build that elaborates: `HARDWARE` never does (60_exceptions.md R160). -/
inductive Strategy where
  | speed
  | size
deriving DecidableEq, Repr

/-- The parameters a build is asked for. `STRATEGY` must be given, `TEST_HOOK` defaults to 0, and `N_INST` and
`ADDR_W` are open (00_scope.md R9). -/
structure Params where
  strategy : StrategySel
  testHook : Bool := false
  nInst : Nat
  addrW : Nat
deriving DecidableEq, Repr

/-- The configuration of an elaborated build (00_scope.md R9, 10_state.md R20). Nothing changes it at run time (R4). -/
structure Build where
  strategy : Strategy
  testHook : Bool
  nInst : Nat
  addrW : Nat
deriving DecidableEq, Repr

/-- Why a build does not elaborate. -/
inductive BuildError where
  /-- B1 HardwareStrategy: the parameters ask for the unimplemented strategy (60_exceptions.md R160, R161). -/
  | hardwareStrategy
  /-- `N_INST` is not in 1 .. 256 (00_scope.md R9). -/
  | nInstOutOfRange
  /-- `ADDR_W` is not in 1 .. 32 (00_scope.md R9). -/
  | addrWOutOfRange
deriving DecidableEq, Repr

/-- The generator polynomial, a constant (00_scope.md R2). -/
def poly : Byte := 0xD5#8

/-- `N_INST` and `ADDR_W` lie in their ranges (00_scope.md R9). -/
abbrev Build.Ok (b : Build) : Prop := 1 ≤ b.nInst ∧ b.nInst ≤ 256 ∧ 1 ≤ b.addrW ∧ b.addrW ≤ 32

/-- The build `State.reset` stands for. DESIGN CHOICE (notes/assumptions/2.md): `SPEED` with the test hook, the most
instances and the widest address, so that every command word of the opcode table is legal in it. -/
def Build.reference : Build where
  strategy := .speed
  testHook := true
  nInst := 256
  addrW := 32

/-- FREE VALUE (notes/assumptions/5.md): what the data-memory byte at an address holds until the host first writes
it. The spec gives no contents (00_scope.md R13). -/
opaque Config.powerOnByte : Nat → Byte

/-- FREE VALUE (notes/assumptions/6.md): which of the enabled agents moves where the schedule does not say. The spec
fixes no order (00_scope.md R12). -/
opaque Config.agentChoice : Nat → Nat

end Sys2Proof
end

