-- ==== Sys2Proof/Syntax.lean ====
section
/-! DEFINITION. The commands of the engine, one constructor for each row of spec/opcode_table.json. -/

namespace Sys2Proof

/-- A command (30_encoding.md R86, R87), with its operands in the order of R91. -/
inductive Instr where
  /-- CALC `start, len` (42_calculate.md R125). -/
  | calculate (start len : Byte)
  /-- CALC_OFS `ofs, start, len` (42_calculate.md R126). -/
  | calculateOfs (ofs start len : Byte)
  /-- COPY `src` (43_instance_ops.md R141). -/
  | copy (src : Byte)
  /-- TEST_WR `tidx, tval` (43_instance_ops.md R144). -/
  | testWr (tidx tval : Byte)
deriving DecidableEq, Repr

end Sys2Proof
end

