-- ==== Sys2Proof/WellFormed.lean ====
section
/-! DEFINITION. Which commands a build has: the "legal only when" column of 30_encoding.md R86. -/

namespace Sys2Proof

/-- The command is legal in this build (30_encoding.md R86): a COPY names an instance that exists, and TEST_WR needs
the hook and a lookup table. CALC and CALC_OFS always are. -/
def Instr.wf (b : Build) : Instr → Bool
  | .calculate _ _ => true
  | .calculateOfs _ _ _ => true
  | .copy src => decide (src.toNat < b.nInst)
  | .testWr _ _ => b.testHook && decide (b.strategy = .speed)

end Sys2Proof
end

