-- ==== Sys2Proof/Decode.lean ====
section
/-! DEFINITION. The command word: `decode` (30_encoding.md R86 to R88) and `encode` (30_encoding.md R91). -/

namespace Sys2Proof

/-- Why a word is illegal: the bullets of 30_encoding.md R88. The hardware records none of this (60_exceptions.md R161). -/
inductive IllegalWord where
  /-- `OP` is 0x0 or one of 0x5 .. 0xF. -/
  | reservedOpcode
  /-- `w[7:4]` is not 0. -/
  | reservedBits
  /-- CALC with `OFS` not 0. -/
  | calcWithOffset
  /-- COPY with `w[31:16]` not 0. -/
  | copyHighBits
  /-- COPY with `SRC >= N_INST`. -/
  | copyNoSuchSource
  /-- TEST_WR with `w[31:24]` not 0. -/
  | testWrHighBits
  /-- TEST_WR in a build with `TEST_HOOK = 0` or `STRATEGY = SIZE`. -/
  | testWrAbsent
deriving DecidableEq, Repr

/-- `w[31:24]`: LEN of format C (30_encoding.md R82). -/
def field31 (w : Word) : Byte := w.extractLsb' 24 8

/-- `w[23:16]`: OFS of format C, TVAL of format T (30_encoding.md R82, R84). -/
def field23 (w : Word) : Byte := w.extractLsb' 16 8

/-- `w[15:8]`: START of format C, SRC of format K, TIDX of format T (30_encoding.md R82 to R84). -/
def field15 (w : Word) : Byte := w.extractLsb' 8 8

/-- The name of what is wrong with a word that `decode` does not accept (30_encoding.md R88). -/
def illegalCause (w : Word) : IllegalWord :=
  if w &&& 0x000000F0#32 ≠ 0#32 then .reservedBits
  else if w &&& 0x0000000F#32 = 0x1#32 then .calcWithOffset
  else if w &&& 0x0000000F#32 = 0x3#32 then
    if w &&& 0xFFFF0000#32 ≠ 0#32 then .copyHighBits else .copyNoSuchSource
  else if w &&& 0x0000000F#32 = 0x4#32 then
    if w &&& 0xFF000000#32 ≠ 0#32 then .testWrHighBits else .testWrAbsent
  else .reservedOpcode

/-- The verdict on a command word (30_encoding.md R87): it reads only the word and the configuration. -/
def decode (b : Build) (w : Word) : Except IllegalWord Instr :=
  if w &&& 0x00FF00FF#32 = 0x00000001#32 then
    .ok (.calculate (field15 w) (field31 w))
  else if w &&& 0x000000FF#32 = 0x00000002#32 then
    .ok (.calculateOfs (field23 w) (field15 w) (field31 w))
  else if w &&& 0xFFFF00FF#32 = 0x00000003#32 ∧ (field15 w).toNat < b.nInst then
    .ok (.copy (field15 w))
  else if w &&& 0xFF0000FF#32 = 0x00000004#32 ∧ b.testHook = true ∧ b.strategy = .speed then
    .ok (.testWr (field15 w) (field23 w))
  else
    .error (illegalCause w)

/-- The command word of a command (30_encoding.md R91). -/
def encode : Instr → Word
  | .calculate start len => (len.setWidth 32 <<< 24) ||| (start.setWidth 32 <<< 8) ||| 0x1#32
  | .calculateOfs ofs start len =>
    (len.setWidth 32 <<< 24) ||| (ofs.setWidth 32 <<< 16) ||| (start.setWidth 32 <<< 8) ||| 0x2#32
  | .copy src => (src.setWidth 32 <<< 8) ||| 0x3#32
  | .testWr tidx tval => (tval.setWidth 32 <<< 16) ||| (tidx.setWidth 32 <<< 8) ||| 0x4#32

/-- The word whose low `nbits` bits are those of `w` and whose other bits are 0: a command is one 32-bit word written
whole, with no byte order (20_memory.md R65). -/
def tableWord (nbits w : Nat) : Word := BitVec.ofNat 32 (w % 2 ^ nbits)

/-- What the decoder reads from an opcode-table word, in the reference build. -/
def decodeTableWord (nbits w : Nat) : Option Instr := (decode Build.reference (tableWord nbits w)).toOption

end Sys2Proof
end

