-- ==== Sys2Proof/Machine/State.lean ====
section
/-! DEFINITION. The state of the machine as plain data (10_state.md R20), the reasons a step can stop, and reset. -/

namespace Sys2Proof.Machine

/-- Bytes by address: addresses strictly rising, an unlisted address holds no value of its own. The data memory and
each lookup table are kept so. -/
abbrev Memory := List Host.Cell

/-- The sequencing state PHASE of an engine (10_state.md R34). -/
inductive Phase where
  | gen
  | idle
  | calculate
  | copy
  | twr
deriving DecidableEq, Repr

/-- One engine instance `E[k]` (10_state.md R20): registers, lookup table, hidden sequencing state. BUSY, CMD, CONFIG
and the reserved registers need no storage (10_state.md R23, R26, R29, R30). -/
structure Engine where
  /-- STATUS.READY (10_state.md R25). -/
  ready : Bool
  /-- STATUS.ILLEGAL (10_state.md R24). -/
  illegal : Bool
  /-- STATUS.OVERRUN (10_state.md R24). -/
  overrun : Bool
  /-- BASE (10_state.md R27). -/
  base : Word
  /-- RESULT bits 7 to 0 (10_state.md R28). -/
  result : Byte
  /-- LUT: the listed entries are the written ones (10_state.md R31, R33). -/
  lut : Memory
  /-- PHASE (10_state.md R34). -/
  phase : Phase
  /-- GIDX (10_state.md R35). -/
  gidx : BitVec 9
  /-- ABASE (10_state.md R35). -/
  abase : Word
  /-- C, the running checksum (10_state.md R35). -/
  c : Byte
  /-- IDX, the index of the next byte to read (10_state.md R35). -/
  idx : Byte
  /-- END, the exclusive end index (10_state.md R35). -/
  endIdx : Byte
  /-- LSRC (10_state.md R35). -/
  lsrc : Byte
  /-- LTIDX (10_state.md R35). -/
  ltidx : Byte
  /-- LTVAL (10_state.md R35). -/
  ltval : Byte
deriving DecidableEq, Repr

/-- A run of data-memory addresses that the host has declared readable (20_memory.md R66). -/
structure Region where
  base : Nat
  size : Nat
deriving DecidableEq, Repr

/-- A host transaction (30_encoding.md R90), and POLL, the loop of register reads (30_encoding.md R92). An access names
its instance and its register index (20_memory.md R72). -/
inductive HostOp where
  | regRead (k : Nat) (regIdx : BitVec 3)
  | regWrite (k : Nat) (regIdx : BitVec 3) (w : Word)
  | dataWrite (addr : Word) (b : Byte)
  | dataRead (addr : Word)
  | poll (k : Nat) (regIdx : BitVec 3) (mask value : Word)
deriving DecidableEq, Repr

/-- What happens at one step: an agent moves (00_scope.md R12), or the reset input is applied
(70_reset_and_hazards.md R180, R182). -/
inductive Event where
  | host
  | engine (k : Nat)
  | reset
deriving DecidableEq, Repr

/-- The machine: the engines, the data memory and launch memory they share, the build, and the model's own fields for
the host and for the order of the agents. -/
structure State where
  /-- The configuration (00_scope.md R9). No step changes it. -/
  build : Build
  /-- `E[0] .. E[N_INST-1]` (10_state.md R20). -/
  engines : List Engine
  /-- The data memory: the bytes the host has written (20_memory.md R60). -/
  mem : Memory
  /-- The launch memory of the run (20_memory.md R66). No step changes it. -/
  launch : List Region
  /-- The MODEL's: the host's remaining transactions, in program order (20_memory.md R73). -/
  host : List HostOp
  /-- The MODEL's: the values the host's reads have returned, oldest first. -/
  reads : List Word
  /-- The MODEL's: the instance whose CMD was written last, on which a decoded command runs (30_encoding.md R80). -/
  port : Nat
  /-- The MODEL's: what happens at the next steps, first one first (00_scope.md R12). -/
  schedule : List Event
  /-- The MODEL's: a counter, the argument of the free choice of an agent where the schedule is empty. -/
  choices : Nat
deriving DecidableEq, Repr

/-- Why the machine stops. Every one is SAFE: the model goes on nowhere that the hardware does not. -/
inductive Fault where
  /-- F1: raised by the acceptance of CALC_OFS with `ofs >= len`; records the instance and the command word
  (60_exceptions.md R161, R163). Safe. -/
  | offsetNotBelowLength (k : Nat) (w : Word)
  /-- F2: raised by a read of an unwritten table entry, in XFORM or COPY; records the instance and the index
  (60_exceptions.md R161, R164). Safe; no run reaches it. -/
  | unwrittenLutRead (k : Nat) (i : Byte)
  /-- X1, stuck: raised by `step` where no agent has a step and some engine is in the middle of an operation
  (20_memory.md R66, 60_exceptions.md R161). Safe. -/
  | readNotAdmitted
  /-- Raised by a host access to an instance that the build does not have. Safe. -/
  | noSuchInstance (k : Nat)
  /-- Raised by a host access outside the `2^ADDR_W` bytes of data memory (20_memory.md R60). Safe. -/
  | noSuchAddress (addr : Word)
deriving DecidableEq, Repr

/-- Why an instruction has no meaning. -/
inductive Refusal where
  /-- Raised only by a dispatch arm whose instruction has no meaning in the model. Safe; no arm raises it. -/
  | notModelled (mnemonic : String)
deriving DecidableEq, Repr

/-- What a step answers. -/
abbrev Result := Host.Outcome State Fault Refusal

/-- The reset values of an engine (10_state.md R40): SPEED starts in GEN, SIZE idle and READY. -/
def Engine.reset (b : Build) : Engine where
  ready := decide (b.strategy = .size)
  illegal := false
  overrun := false
  base := 0#32
  result := 0#8
  lut := []
  phase := match b.strategy with | .speed => .gen | .size => .idle
  gidx := 0#9
  abase := 0#32
  c := 0#8
  idx := 0#8
  endIdx := 0#8
  lsrc := 0#8
  ltidx := 0#8
  ltval := 0#8

/-- The machine of a build right after reset (10_state.md R40, 70_reset_and_hazards.md R180). DESIGN CHOICE for what
the spec gives no reset value: no byte written, the whole data memory declared readable, no host transaction, no
schedule (notes/assumptions/3.md to 7.md). -/
def State.resetOf (b : Build) : State where
  build := b
  engines := List.replicate b.nInst (Engine.reset b)
  mem := []
  launch := [⟨0, 2 ^ b.addrW⟩]
  host := []
  reads := []
  port := 0
  schedule := []
  choices := 0

/-- The machine right after reset, in the reference build. -/
def State.reset : State := State.resetOf Build.reference

end Sys2Proof.Machine
end

