-- ==== Sys2Proof/Machine/Flags.lean ====
section
/-! DEFINITION. STATUS and its four bits (10_state.md R24 to R26), and CONFIG (10_state.md R29). -/

namespace Sys2Proof.Machine

/-- STATUS.BUSY: 1 exactly while PHASE is not IDLE (10_state.md R26). -/
def Engine.busy (e : Engine) : Bool := decide (e.phase ≠ .idle)

/-- What a read of STATUS returns (10_state.md R24): OVERRUN, ILLEGAL, BUSY, READY in bits 3 to 0. -/
def Engine.statusWord (e : Engine) : Word :=
  0#28 ++ BitVec.ofBool e.overrun ++ BitVec.ofBool e.illegal ++ BitVec.ofBool e.busy ++ BitVec.ofBool e.ready

/-- A host write to STATUS: a 1 in bit 2 clears ILLEGAL, a 1 in bit 3 clears OVERRUN, all else is ignored
(10_state.md R24). -/
def Engine.clearStatus (e : Engine) (w : Word) : Engine :=
  { e with illegal := e.illegal && !w.getLsbD 2, overrun := e.overrun && !w.getLsbD 3 }

/-- An illegal command was dropped: STATUS.ILLEGAL is set and nothing else changes (60_exceptions.md R165). -/
def Engine.setIllegal (e : Engine) : Engine := { e with illegal := true }

/-- A command was written while BUSY: STATUS.OVERRUN is set and nothing else changes (60_exceptions.md R166). -/
def Engine.setOverrun (e : Engine) : Engine := { e with overrun := true }

/-- CONFIG[1:0]: the encoding of the strategy (00_scope.md R9, 10_state.md R29). -/
def Strategy.code : Strategy → BitVec 2
  | .speed => 0#2
  | .size => 1#2

/-- What a read of CONFIG of instance `k` returns (10_state.md R29). -/
def configWord (b : Build) (k : Nat) : Word :=
  BitVec.ofNat 8 (b.nInst - 1) ++ BitVec.ofNat 8 k ++ poly ++ 0#5 ++ BitVec.ofBool b.testHook ++ Strategy.code b.strategy

end Sys2Proof.Machine
end

