-- ==== Sys2Proof/Machine/Operands.lean ====
section
/-! DEFINITION. The operand that is not a field of the command word: the buffer address from BASE and ABASE
(10_state.md R27, 20_memory.md R63). -/

namespace Sys2Proof.Machine

/-- The low `ADDR_W` bits of a word, the others 0 (10_state.md R27). -/
def addrBits (b : Build) (w : Word) : Word := BitVec.ofNat 32 (w.toNat % 2 ^ b.addrW)

/-- The address of element `i` of the buffer, `(ABASE + i) mod 2^ADDR_W` (20_memory.md R63). -/
def elementAddr (b : Build) (abase : Word) (i : Nat) : Nat := (abase.toNat + i) % 2 ^ b.addrW

end Sys2Proof.Machine
end

