-- ==== Sys2Proof/Machine/PolyTransform.lean ====
section
/-! DEFINITION. The block crc8_poly_transform: the polynomial transform (40_poly_transform.md). -/

namespace Sys2Proof.Machine

/-- One round of the transform (40_poly_transform.md R100): shift left, and XOR the polynomial if bit 7 was set. -/
def polyRound (c : Byte) : Byte := if c.getLsbD 7 then (c <<< 1) ^^^ poly else c <<< 1

/-- `n` rounds of the transform. -/
def polyRounds : Nat → Byte → Byte
  | 0, c => c
  | n + 1, c => polyRounds n (polyRound c)

/-- `T(x)`, the 8-round polynomial transform (40_poly_transform.md R100). DESIGN CHOICE (notes/assumptions/19.md): R100 and
the table of 95_test_vectors.md give `T(0xB3) = 0xB3`, against the remark of 42_calculate.md R121 that only 0x00 is its own
transform; the model follows R100. -/
def polyT (x : Byte) : Byte := polyRounds 8 x

/-- `xform(c, b) = T(c ^ b)` (40_poly_transform.md R101). -/
def xform (c b : Byte) : Byte := polyT (c ^^^ b)

end Sys2Proof.Machine
end

