-- ==== Sys2Proof/Machine/Ops.lean ====
section
/-! DEFINITION. The named operations over memory, lookup tables and engines, and the one operation that receives a
command: drop it with OVERRUN, drop it with ILLEGAL, or accept it (30_encoding.md R80, 60_exceptions.md R167). -/

namespace Sys2Proof.Machine

/-- The byte listed at an address, if there is one. -/
def Memory.read : Memory → Nat → Option Byte
  | [], _ => none
  | (x, v) :: m, a => if x = a then some v else Memory.read m a

/-- List a byte at an address, in place of the one listed there before. -/
def Memory.write : Memory → Nat → Byte → Memory
  | [], a, b => [(a, b)]
  | (x, v) :: m, a, b =>
    if a < x then (a, b) :: (x, v) :: m
    else if a = x then (a, b) :: m
    else (x, v) :: Memory.write m a b

/-- The addresses rise strictly and none is below `lo`. -/
def Memory.above : Nat → Memory → Bool
  | _, [] => true
  | lo, (x, _) :: m => decide (lo ≤ x) && Memory.above (x + 1) m

/-- The canonical form of a memory: addresses strictly rising. An unlisted address has no value, so every listed byte
differs from what an unlisted address reads as. -/
def Memory.wf (m : Memory) : Bool := Memory.above 0 m

/-- Every listed address is below `n`. -/
abbrev Memory.Below (n : Nat) (m : Memory) : Prop := ∀ c ∈ m, c.1 < n

/-- The launch memory admits a read of this address (20_memory.md R66). -/
def State.admits (s : State) (a : Nat) : Bool := s.launch.any fun r => decide (r.base ≤ a ∧ a < r.base + r.size)

/-- The byte that data memory holds at an address: the one the host wrote last (20_memory.md R73), or the free
power-on value where the host has written none. -/
def State.byteAt (s : State) (a : Nat) : Byte := (Memory.read s.mem a).getD (Config.powerOnByte a)

/-- `MemRead(addr, 1)` (20_memory.md R62): the byte at an admitted address, `none` where the read is not admitted. -/
def State.memRead (s : State) (a : Nat) : Option Byte := if s.admits a then some (s.byteAt a) else none

/-- `XFORM(c, b)` (40_poly_transform.md R102): one table read under SPEED, the transform under SIZE. `none` where the
table entry is unwritten. -/
def xformBy (b : Build) (lut : Memory) (c x : Byte) : Option Byte :=
  match b.strategy with
  | .speed => Memory.read lut (c ^^^ x).toNat
  | .size => some (xform c x)

/-- The table that LUT generation leaves: `LUT[i] = T(i)` for every `i` (41_lut_gen.md R112). -/
def generatedTable : Memory := (List.range 256).map fun i => (i, polyT (BitVec.ofNat 8 i))

/-- The first of the 256 entries that is unwritten, if there is one. -/
def firstUnwritten (lut : Memory) : Option Nat := (List.range 256).find? fun i => (Memory.read lut i).isNone

/-- Put an engine in the place of `E[k]`. -/
def State.setEngine (s : State) (k : Nat) (e : Engine) : State := { s with engines := s.engines.set k e }

/-- Receive the command `i` at CMD of the instance `s.port`, in the order of 60_exceptions.md R167: while BUSY it is
an overrun, in a build that does not have it it is illegal, else `accept` says what the engine does. -/
def State.command (s : State) (i : Instr) (accept : Engine → Result) : Result :=
  match s.engines[s.port]? with
  | none => .fault (.noSuchInstance s.port)
  | some e =>
    if e.busy then .next (s.setEngine s.port e.setOverrun)
    else if i.wf s.build then accept e
    else .next (s.setEngine s.port e.setIllegal)

/-- Reset (70_reset_and_hazards.md R180, R181): every engine takes its reset values, whatever it was doing. Data memory,
the host and the schedule are no state of the engines and stay. -/
def State.applyReset (s : State) : State := { s with engines := s.engines.map fun _ => Engine.reset s.build }

end Sys2Proof.Machine
end

