-- ==== Sys2Proof/Machine/Calculate.lean ====
section
/-! DEFINITION. The calculate commands CALC and CALC_OFS: acceptance, byte step, completion step (42_calculate.md). -/

namespace Sys2Proof.Machine

/-- The engine starts folding: ABASE is latched from BASE, C is `c`, IDX and END delimit the bytes to read, PHASE is
CALC (42_calculate.md R120, R122). -/
def Engine.startCalc (b : Build) (e : Engine) (c idx endIdx : Byte) : Engine :=
  { e with abase := addrBits b e.base, c := c, idx := idx, endIdx := endIdx, phase := .calculate }

/-- CALC at CMD of `s.port` (42_calculate.md R120, R125): its acceptance folds `start` into 0 and starts at byte 0. -/
def execCalc (start len : Byte) (s : State) : Result :=
  s.command (.calculate start len) fun e =>
    match xformBy s.build e.lut 0x00#8 start with
    | none => .fault (.unwrittenLutRead s.port (0x00#8 ^^^ start))
    | some c => .next (s.setEngine s.port (e.startCalc s.build c 0x00#8 len))

/-- CALC_OFS at CMD of `s.port` (42_calculate.md R122, R126): a model fault where `ofs >= len`; else it starts at byte
`ofs` with C = 0. `start` is ignored (30_encoding.md R89). -/
def execCalcOfs (ofs start len : Byte) (s : State) : Result :=
  s.command (.calculateOfs ofs start len) fun e =>
    if len.toNat ≤ ofs.toNat then .fault (.offsetNotBelowLength s.port (encode (.calculateOfs ofs start len)))
    else .next (s.setEngine s.port (e.startCalc s.build 0x00#8 ofs len))

/-- The byte step of `E[k]` (42_calculate.md R123), enabled in CALC while `IDX < END` and the read is admitted. -/
def byteStep (k : Nat) (e : Engine) (b : Byte) (s : State) : Result :=
  match xformBy s.build e.lut e.c b with
  | none => .fault (.unwrittenLutRead k (e.c ^^^ b))
  | some c => .next (s.setEngine k { e with c := c, idx := e.idx + 1#8 })

/-- The completion step of `E[k]` (42_calculate.md R124), enabled in CALC when `IDX = END`. -/
def completeStep (k : Nat) (e : Engine) (s : State) : Result :=
  .next (s.setEngine k { e with result := e.c, phase := .idle })

end Sys2Proof.Machine
end

