-- ==== Sys2Proof/Machine/InstanceOps.lean ====
section
/-! DEFINITION. The instance operations COPY and TEST_WR: acceptance and execute step (43_instance_ops.md). -/

namespace Sys2Proof.Machine

/-- COPY at CMD of `s.port` (43_instance_ops.md R141): illegal where the source is not READY, else the source is latched
and the copy waits for its execute step. -/
def execCopy (src : Byte) (s : State) : Result :=
  s.command (.copy src) fun e =>
    match s.engines[src.toNat]? with
    | none => .fault (.noSuchInstance src.toNat)
    | some source =>
      if source.ready then .next (s.setEngine s.port { e with lsrc := src, phase := .copy })
      else .next (s.setEngine s.port e.setIllegal)

/-- TEST_WR at CMD of `s.port` (43_instance_ops.md R144): the entry and the value are latched and the write waits for its
execute step. -/
def execTestWr (tidx tval : Byte) (s : State) : Result :=
  s.command (.testWr tidx tval) fun e =>
    .next (s.setEngine s.port { e with ltidx := tidx, ltval := tval, phase := .twr })

/-- The copy step of `E[k]` (43_instance_ops.md R142), enabled in COPY: under SPEED, and from another instance, all 256
entries of the source's table in one step. -/
def copyStep (k : Nat) (e : Engine) (s : State) : Result :=
  if s.build.strategy = .speed ∧ e.lsrc.toNat ≠ k then
    match s.engines[e.lsrc.toNat]? with
    | none => .fault (.noSuchInstance e.lsrc.toNat)
    | some source =>
      match firstUnwritten source.lut with
      | some i => .fault (.unwrittenLutRead k (BitVec.ofNat 8 i))
      | none => .next (s.setEngine k { e with lut := source.lut, phase := .idle })
  else .next (s.setEngine k { e with phase := .idle })

/-- The test-write step of `E[k]` (43_instance_ops.md R145), enabled in TWR. -/
def twrStep (k : Nat) (e : Engine) (s : State) : Result :=
  .next (s.setEngine k { e with lut := Memory.write e.lut e.ltidx.toNat e.ltval, phase := .idle })

end Sys2Proof.Machine
end

