-- ==== Sys2Proof/Machine/Dispatch.lean ====
section
/-! DEFINITION. The meaning of each command: what a host write of it to CMD of the instance `s.port` does
(30_encoding.md R80). -/

namespace Sys2Proof.Machine

open Sys2Proof

def exec (i : Instr) (s : State) : Host.Outcome State Fault Refusal :=
  match i with
  | .calculate start len => Sys2Proof.Machine.execCalc start len s
  | .calculateOfs ofs start len => Sys2Proof.Machine.execCalcOfs ofs start len s
  | .copy src => Sys2Proof.Machine.execCopy src s
  | .testWr tidx tval => Sys2Proof.Machine.execTestWr tidx tval s

end Sys2Proof.Machine
end

