-- ==== Sys2Proof/Machine/HostPort.lean ====
section
/-! DEFINITION. The host's transactions (30_encoding.md R90): the register window of each instance (10_state.md R22), the
CMD write (30_encoding.md R80) and the data port. -/

namespace Sys2Proof.Machine

/-- What a read of the register `REGIDX` of instance `k` returns (10_state.md R22): CMD reads 0 (R23), RESULT is
zero-extended (R28), the reserved indices read 0 (R30). A read has no side effect (30_encoding.md R90). -/
def Engine.readReg (b : Build) (k : Nat) (e : Engine) (regIdx : BitVec 3) : Word :=
  match regIdx.toNat with
  | 1 => e.statusWord
  | 2 => e.base
  | 3 => e.result.setWidth 32
  | 4 => configWord b k
  | _ => 0#32

/-- A write to the register `REGIDX` other than CMD (10_state.md R22): STATUS clears bits (R24), BASE keeps `ADDR_W` bits
(R27), writes to RESULT, CONFIG and the reserved indices are ignored (R28 to R30). -/
def Engine.writeReg (b : Build) (e : Engine) (regIdx : BitVec 3) (w : Word) : Engine :=
  match regIdx.toNat with
  | 1 => e.clearStatus w
  | 2 => { e with base := addrBits b w }
  | _ => e

/-- A host write of `w` to CMD of `E[k]` (30_encoding.md R80): while BUSY the word is an overrun and is not decoded, an
illegal word sets ILLEGAL, any other runs as the command it decodes to. -/
def cmdWrite (k : Nat) (e : Engine) (w : Word) (s : State) : Result :=
  let s := { s with port := k }
  if e.busy then .next (s.setEngine k e.setOverrun)
  else
    match decode s.build w with
    | .error _ => .next (s.setEngine k e.setIllegal)
    | .ok i => exec i s

/-- The data-memory address exists: it is below `2^ADDR_W` (20_memory.md R60). -/
def State.hasAddress (s : State) (a : Word) : Bool := decide (a.toNat < 2 ^ s.build.addrW)

/-- One host transaction (30_encoding.md R90, R92). A POLL reads once, and stays the host's next transaction until the
masked value is the awaited one. -/
def hostOp (op : HostOp) (s : State) : Result :=
  match op with
  | .regRead k r =>
    match s.engines[k]? with
    | none => .fault (.noSuchInstance k)
    | some e => .next { s with reads := s.reads ++ [e.readReg s.build k r] }
  | .regWrite k r w =>
    match s.engines[k]? with
    | none => .fault (.noSuchInstance k)
    | some e => if r = 0#3 then cmdWrite k e w s else .next (s.setEngine k (e.writeReg s.build r w))
  | .dataWrite a b =>
    if s.hasAddress a then .next { s with mem := Memory.write s.mem a.toNat b } else .fault (.noSuchAddress a)
  | .dataRead a =>
    if s.hasAddress a then .next { s with reads := s.reads ++ [(s.byteAt a.toNat).setWidth 32] }
    else .fault (.noSuchAddress a)
  | .poll k r mask value =>
    match s.engines[k]? with
    | none => .fault (.noSuchInstance k)
    | some e =>
      if e.readReg s.build k r &&& mask = value then .next s
      else .next { s with host := .poll k r mask value :: s.host }

/-- The host's step: its next transaction, if it has one (20_memory.md R73). -/
def hostStep (s : State) : Result :=
  match s.host with
  | [] => .next s
  | op :: rest => hostOp op { s with host := rest }

/-- `MEMW addr: b0 b1 ... bn` (30_encoding.md R92): byte `j` to `addr + j`. DESIGN CHOICE (notes/assumptions/18.md): the
spec says nothing of an `addr + j` above 0xFFFFFFFF; the sum is one of 32 bits, so that byte goes to the address modulo
2^32. -/
def HostOp.memw (addr : Word) : List Byte → List HostOp
  | [] => []
  | b :: bs => .dataWrite addr b :: HostOp.memw (addr + 1#32) bs

/-- `k.CALC`, `k.CALC_OFS`, `k.COPY`, `k.TEST_WR` (30_encoding.md R92): the write of the command's word to CMD. -/
def HostOp.issue (k : Nat) (i : Instr) : HostOp := .regWrite k 0#3 (encode i)

/-- `k.SETBASE a` (30_encoding.md R92). -/
def HostOp.setBase (k : Nat) (a : Word) : HostOp := .regWrite k 2#3 a

/-- `k.WAIT_READY` (30_encoding.md R92). -/
def HostOp.waitReady (k : Nat) : HostOp := .poll k 1#3 0x00000001#32 0x00000001#32

/-- `k.WAIT_IDLE` (30_encoding.md R92). -/
def HostOp.waitIdle (k : Nat) : HostOp := .poll k 1#3 0x00000002#32 0x00000000#32

/-- `k.CLEAR_ERR` (30_encoding.md R92). -/
def HostOp.clearErr (k : Nat) : HostOp := .regWrite k 1#3 0x0000000C#32

end Sys2Proof.Machine
end

