-- ==== Sys2Proof/Machine/LutGen.lean ====
section
/-! DEFINITION. The block crc8_lut_gen: the generation step (41_lut_gen.md). -/

namespace Sys2Proof.Machine

/-- What the generation step does to its engine (41_lut_gen.md R111): write one entry, count it, and after the last one
become READY and idle. -/
def Engine.generate (e : Engine) : Engine :=
  let i := e.gidx.setWidth 8
  let e' := { e with lut := Memory.write e.lut i.toNat (polyT i), gidx := e.gidx + 1#9 }
  if e'.gidx = 256#9 then { e' with ready := true, phase := .idle } else e'

/-- The LUT-generation step of `E[k]` (41_lut_gen.md R111), enabled in GEN. -/
def genStep (k : Nat) (e : Engine) (s : State) : Result := .next (s.setEngine k e.generate)

end Sys2Proof.Machine
end

