-- ==== Sys2Proof/Machine/Agents.lean ====
section
/-! DEFINITION. The agents (00_scope.md R12): which step an engine has enabled, what happens at an event, which agent
moves next, and how a command word is placed before the host. -/

namespace Sys2Proof.Machine

/-- The step an engine has enabled: at most one (00_scope.md R12). -/
inductive EngineStep where
  | gen
  | byte (b : Byte)
  | complete
  | copy
  | twr
deriving DecidableEq, Repr

/-- The address the byte step of an engine reads (20_memory.md R63, 42_calculate.md R123). -/
def Engine.nextAddr (b : Build) (e : Engine) : Nat := elementAddr b e.abase e.idx.toNat

/-- The enabled step of an engine (41_lut_gen.md R111, 42_calculate.md R123, R124, 43_instance_ops.md R142, R145). An idle
engine has none (60_exceptions.md R176), and an engine whose next read is not admitted has none: it is stuck
(20_memory.md R66). -/
def State.enabledStep (s : State) (e : Engine) : Option EngineStep :=
  match e.phase with
  | .gen => some .gen
  | .idle => none
  | .calculate =>
    if e.idx.toNat < e.endIdx.toNat then (s.memRead (e.nextAddr s.build)).map .byte
    else if e.idx = e.endIdx then some .complete
    else none
  | .copy => some .copy
  | .twr => some .twr

/-- Run a step of `E[k]`. -/
def EngineStep.run (st : EngineStep) (k : Nat) (e : Engine) (s : State) : Result :=
  match st with
  | .gen => genStep k e s
  | .byte b => byteStep k e b s
  | .complete => completeStep k e s
  | .copy => copyStep k e s
  | .twr => twrStep k e s

/-- The step of the agent `E[k]`: its enabled step; without one it stays as it is. -/
def engineStep (k : Nat) (s : State) : Result :=
  match s.engines[k]? with
  | none => .next s
  | some e =>
    match s.enabledStep e with
    | none => .next s
    | some st => st.run k e s

/-- One event: the host's step, an engine's step, or reset (00_scope.md R12, 70_reset_and_hazards.md R182). -/
def runEvent (ev : Event) (s : State) : Result :=
  match ev with
  | .host => hostStep s
  | .engine k => engineStep k s
  | .reset => .next s.applyReset

/-- The engine `E[k]` exists and has an enabled step. -/
def State.canStep (s : State) (k : Nat) : Bool :=
  match s.engines[k]? with
  | none => false
  | some e => (s.enabledStep e).isSome

/-- The agents with an enabled step (00_scope.md R12). -/
def State.enabledAgents (s : State) : List Event :=
  (if s.host.isEmpty then [] else [.host]) ++
    ((List.range s.engines.length).filter fun k => s.canStep k).map .engine

/-- One of the enabled agents, by a free value where there are several (00_scope.md R12). -/
def pickAgent (ev : Event) (rest : List Event) (n : Nat) : Event :=
  match rest with
  | [] => ev
  | _ => (ev :: rest).getD (Config.agentChoice n % (rest.length + 1)) ev

/-- Who moves at the next step: the first event of the schedule, or one of the enabled agents where the schedule is
empty. `none` where no agent is enabled either. -/
def State.nextMove (s : State) : Option Event :=
  match s.schedule with
  | ev :: _ => some ev
  | [] =>
    match s.enabledAgents with
    | [] => none
    | ev :: rest => some (pickAgent ev rest s.choices)

/-- The state with that choice used up: the first event of the schedule, or one value of the counter. -/
def State.useMove (s : State) : State :=
  match s.schedule with
  | _ :: rest => { s with schedule := rest }
  | [] => { s with choices := s.choices + 1 }

/-- One step: the event of `nextMove`. Where nobody can move the run has ended and the machine keeps its state
(00_scope.md R13, 60_exceptions.md R176), or an engine is stuck in an operation and there is no next state (20_memory.md
R66). -/
def nextEvent (s : State) : Result :=
  match s.nextMove with
  | some ev => runEvent ev s.useMove
  | none => if s.engines.any Engine.busy then .fault .readNotAdmitted else .next s

/-- The engine as LUT generation leaves it, if it is still generating (41_lut_gen.md R112). -/
def Engine.constructed (e : Engine) : Engine :=
  if e.phase = .gen then { e with lut := generatedTable, gidx := 256#9, ready := true, phase := .idle } else e

/-- Let an engine finish its construction. -/
def State.construct (s : State) (k : Nat) : State :=
  match s.engines[k]? with
  | none => s
  | some e => s.setEngine k e.constructed

/-- Let the instance behind the command port be idle, its construction finished. -/
def State.idlePort (s : State) : State :=
  match s.engines[s.port]? with
  | none => s
  | some e => s.setEngine s.port { e.constructed with phase := .idle }

/-- The command word `w` is the host's next transaction and the host moves next, on an instance that can take it: the
instance behind the port is idle, and the source of a COPY is constructed. -/
def State.placeCommand (s : State) (w : Word) : State :=
  let s₁ := match decode s.build w with
    | .ok (.copy src) => s.construct src.toNat
    | _ => s
  let s₂ := s₁.idlePort
  { s₂ with host := .regWrite s₂.port 0#3 w :: s₂.host, schedule := .host :: s₂.schedule }

end Sys2Proof.Machine
end

