-- ==== Sys2Proof/Machine/Step.lean ====
section
/-! DEFINITION. The step of the machine, and where the host's check places a command. -/

namespace Sys2Proof.Machine

/-- One event of the total order of host accesses and engine steps (20_memory.md R73). -/
def step (s : State) : Host.Outcome State Fault Refusal := nextEvent s

/-- The state with a command word placed so that the next step runs it. -/
def State.withFetchWord (s : State) (nbits w : Nat) : State := s.placeCommand (tableWord nbits w)

end Sys2Proof.Machine
end

