-- ==== Sys2Proof/Machine/Elaborate.lean ====
section
/-! DEFINITION. Elaboration of a build (60_exceptions.md R160, 00_scope.md R9). -/

namespace Sys2Proof.Machine

/-- Elaborate a build, or say why it does not elaborate: `HARDWARE` is rejected (60_exceptions.md R160), and so are
parameters out of range (00_scope.md R9). -/
def elaborate (p : Params) : Except BuildError Build :=
  let inRange (strategy : Strategy) : Except BuildError Build :=
    if ¬ (1 ≤ p.nInst ∧ p.nInst ≤ 256) then .error .nInstOutOfRange
    else if ¬ (1 ≤ p.addrW ∧ p.addrW ≤ 32) then .error .addrWOutOfRange
    else .ok ⟨strategy, p.testHook, p.nInst, p.addrW⟩
  match p.strategy with
  | .hardware => .error .hardwareStrategy
  | .speed => inRange .speed
  | .size => inRange .size

/-- The machine a set of parameters comes up as. No instance exists where the build does not elaborate
(60_exceptions.md R160). -/
def boot (p : Params) : Except BuildError State := (elaborate p).map State.resetOf

end Sys2Proof.Machine
end

