-- ==== Sys2Proof/Safety.lean ====
section
/-! DEFINITION. What claims are stated in: the invariant of the machine, intact lookup tables, runs of agents, and the
checksum of a buffer. -/

namespace Sys2Proof.Machine

/-- All 256 entries of a lookup table are written. -/
abbrev TableFull (lut : Memory) : Prop := ∀ i < 256, (Memory.read lut i).isSome = true

/-- Every written entry is the generated one, `LUT[i] = T(i)` (41_lut_gen.md R112). -/
abbrev TableGenerated (lut : Memory) : Prop := ∀ c ∈ lut, c.2 = polyT (BitVec.ofNat 8 c.1)

/-- An engine in GEN (10_state.md R34, 41_lut_gen.md R111): the entries below GIDX are the written ones. -/
abbrev Engine.GenOk (b : Build) (e : Engine) : Prop :=
  b.strategy = .speed ∧ e.gidx.toNat < 256 ∧
    ∀ i < 256, (Memory.read e.lut i).isSome = decide (i < e.gidx.toNat)

/-- The storage a strategy gives an engine (10_state.md R25, R31): under SPEED a READY engine has a full table, under
SIZE there is no table and the engine is READY. -/
abbrev Engine.StrategyOk (b : Build) (e : Engine) : Prop :=
  (b.strategy = .speed → e.ready = true → TableFull e.lut ∧ e.gidx = 256#9) ∧
  (b.strategy = .size → e.lut = [] ∧ e.gidx = 0#9 ∧ e.ready = true)

/-- The invariant of one engine. -/
abbrev Engine.Inv (b : Build) (e : Engine) : Prop :=
  Memory.wf e.lut = true ∧ Memory.Below 256 e.lut ∧
  e.base.toNat < 2 ^ b.addrW ∧ e.abase.toNat < 2 ^ b.addrW ∧
  (e.ready = false ↔ e.phase = .gen) ∧
  (e.phase = .gen → e.GenOk b) ∧
  e.StrategyOk b ∧
  (e.phase = .calculate → e.idx.toNat ≤ e.endIdx.toNat) ∧
  (e.phase = .twr → b.testHook = true ∧ b.strategy = .speed)

/-- The source that an engine in COPY will read exists and is READY (43_instance_ops.md R141). -/
abbrev State.CopySourceReady (s : State) (e : Engine) : Prop :=
  e.phase = .copy → (s.engines[e.lsrc.toNat]?).map Engine.ready = some true

/-- The invariant of the machine: a legal build with its `N_INST` engines, data memory in canonical form and inside the
address space, every engine consistent, and every pending COPY with a READY source. -/
abbrev State.Inv (s : State) : Prop :=
  s.build.Ok ∧ s.engines.length = s.build.nInst ∧ s.port < s.build.nInst ∧
  Memory.wf s.mem = true ∧ Memory.Below (2 ^ s.build.addrW) s.mem ∧
  (∀ e ∈ s.engines, e.Inv s.build) ∧
  ∀ e ∈ s.engines, s.CopySourceReady e

/-- Every engine's table has only generated entries: no TEST_WR has changed one (10_state.md R32). -/
abbrev State.TablesGenerated (s : State) : Prop := ∀ e ∈ s.engines, TableGenerated e.lut

/-- The engine that CMD writes go to, and that it is idle (60_exceptions.md R177). -/
abbrev State.IdlePort (s : State) (e : Engine) : Prop := s.engines[s.port]? = some e ∧ e.phase = .idle

/-- `fold(c, bytes)` (42_calculate.md, notation of section 1). -/
def foldXform (c : Byte) (bytes : List Byte) : Byte := bytes.foldl xform c

/-- The checksum that XFORM of one engine's table folds from bytes (42_calculate.md R125, R126). `none` where it reads an
unwritten entry. -/
def foldBy (b : Build) (lut : Memory) (c : Byte) (bytes : List Byte) : Option Byte :=
  bytes.foldl (fun acc x => acc.bind fun c => xformBy b lut c x) (some c)

/-- The bytes `data[lo .. lo+n-1]` of the buffer at an ABASE, as data memory holds them now (20_memory.md R63). -/
def State.buffer (s : State) (abase : Word) (lo n : Nat) : List Byte :=
  (List.range n).map fun j => s.byteAt (elementAddr s.build abase (lo + j))

/-- Every one of those bytes may be read (20_memory.md R66). -/
abbrev State.AdmitsBuffer (s : State) (abase : Word) (lo n : Nat) : Prop :=
  ∀ j < n, s.admits (elementAddr s.build abase (lo + j)) = true

/-- `n` steps of the agent `E[k]` one after the other. -/
def runEngine (k : Nat) : Nat → State → Result
  | 0, s => .next s
  | n + 1, s =>
    match engineStep k s with
    | .next t => runEngine k n t
    | .fault r => .fault r
    | .refused r => .refused r

/-- A sequence of events (00_scope.md R12), up to the first fault. -/
def runEvents : List Event → State → Result
  | [], s => .next s
  | ev :: evs, s =>
    match runEvent ev s with
    | .next t => runEvents evs t
    | .fault r => .fault r
    | .refused r => .refused r

end Sys2Proof.Machine
end

