-- ==== Sys2Proof/Certificates/Slice0/Obligations.lean ====
section
/-! DEFINITION. The statements about the engine, each made from rules of spec/. -/

open Sys2Proof Sys2Proof.Machine

/-! ### The command word -/

/-- 30_encoding.md R93: the example words, in a build with two instances, SPEED and the test hook. -/
def Obligations.ExampleCommandWords : Prop :=
  let b : Build := ⟨.speed, true, 2, 16⟩
  encode (.calculate 0 9) = 0x09000001#32 ∧ decode b 0x09000001#32 = .ok (.calculate 0 9) ∧
  encode (.calculate 0xFF 0) = 0x0000FF01#32 ∧ decode b 0x0000FF01#32 = .ok (.calculate 0xFF 0) ∧
  encode (.calculateOfs 2 0x00 12) = 0x0C020002#32 ∧ decode b 0x0C020002#32 = .ok (.calculateOfs 2 0x00 12) ∧
  encode (.calculateOfs 0 0x5A 4) = 0x04005A02#32 ∧ decode b 0x04005A02#32 = .ok (.calculateOfs 0 0x5A 4) ∧
  encode (.copy 0) = 0x00000003#32 ∧ decode b 0x00000003#32 = .ok (.copy 0) ∧
  encode (.copy 1) = 0x00000103#32 ∧ decode b 0x00000103#32 = .ok (.copy 1) ∧
  encode (.testWr 0x05 0xAA) = 0x00AA0504#32 ∧ decode b 0x00AA0504#32 = .ok (.testWr 0x05 0xAA) ∧
  (decode b 0x00010001#32).toOption = none ∧ (decode b 0x00000010#32).toOption = none

/-- 30_encoding.md R87, R91: decoding the word of a command that the build has gives the command, whatever its
operands. -/
def Obligations.DecodeOfEncode : Prop :=
  ∀ (b : Build) (i : Instr), i.wf b = true → decode b (encode i) = .ok i

/-- 30_encoding.md R86, R87: a word that decodes is the word of one command that the build has, and of no other: no two
rows of the opcode map share a word. -/
def Obligations.EncodeOfDecode : Prop :=
  ∀ (b : Build) (w : Word) (i : Instr), decode b w = .ok i →
    i.wf b = true ∧ encode i = w ∧ ∀ j : Instr, j.wf b = true → encode j = w → j = i

/-- 30_encoding.md R88: the illegal words are exactly the listed ones. -/
def Obligations.IllegalWordsExactly : Prop :=
  ∀ (b : Build) (w : Word),
    (decode b w).toOption = none ↔
      (w.extractLsb' 0 4 = 0x0#4 ∨ 0x5 ≤ (w.extractLsb' 0 4).toNat) ∨
      w.extractLsb' 4 4 ≠ 0x0#4 ∨
      (w.extractLsb' 0 4 = 0x1#4 ∧ w.extractLsb' 16 8 ≠ 0x00#8) ∨
      (w.extractLsb' 0 4 = 0x3#4 ∧ (w.extractLsb' 16 16 ≠ 0x0000#16 ∨ b.nInst ≤ (w.extractLsb' 8 8).toNat)) ∨
      (w.extractLsb' 0 4 = 0x4#4 ∧
        (w.extractLsb' 24 8 ≠ 0x00#8 ∨ b.testHook = false ∨ b.strategy = .size))

/-! ### The step -/

/-- 30_encoding.md R80, R87: where the host moves next and its next transaction writes to CMD of an idle instance a word
that decodes, the step runs the command it decodes to on that instance, with the event and the transaction used up. -/
def Obligations.StepRunsDecodedCommand : Prop :=
  ∀ (s : State) (k : Nat) (w : Word) (rest : List HostOp) (sched : List Event) (e : Engine) (i : Instr),
    s.schedule = .host :: sched → s.host = .regWrite k 0#3 w :: rest → s.engines[k]? = some e → e.phase = .idle →
    decode s.build w = .ok i →
    step s = exec i { s with schedule := sched, host := rest, port := k }

/-- How the model picks who moves, the model's choice (log entry 6, DESIGN CHOICE): the step is the event that the schedule
names first; where the schedule is empty, a free value of the counter picks one of the enabled agents. 00_scope.md R12 says
only that any agent with an enabled step may be scheduled next. -/
def Obligations.StepIsOneEvent : Prop :=
  ∀ s : State,
    (∀ ev sched, s.schedule = ev :: sched → step s = runEvent ev { s with schedule := sched }) ∧
    (s.schedule = [] → s.enabledAgents ≠ [] →
      ∃ ev ∈ s.enabledAgents, step s = runEvent ev { s with choices := s.choices + 1 })

/-- 00_scope.md R13, 60_exceptions.md R176: where every instance is idle, the host has no further transaction and
nothing is scheduled, the run has ended and no instance has an enabled step. That the step then answers the same state is
the model's choice (log entry 9, DESIGN CHOICE). -/
def Obligations.EndedRunKeepsState : Prop :=
  ∀ s : State, s.schedule = [] → s.host = [] → (∀ e ∈ s.engines, e.phase = .idle) → step s = .next s

/-- 20_memory.md R66, 42_calculate.md R123: an engine whose next read is not admitted has no step. The model's choices (log
entry 9, DESIGN CHOICE): an event of an engine without a step answers the same state, and where besides no agent can move
the step answers `readNotAdmitted`, which stands for the stuck state X1 that 60_exceptions.md R161 calls no fault. -/
def Obligations.UnadmittedReadIsStuck : Prop :=
  ∀ (s : State) (k : Nat) (e : Engine),
    s.engines[k]? = some e → e.phase = .calculate → e.idx.toNat < e.endIdx.toNat →
    s.admits ((e.abase.toNat + e.idx.toNat) % 2 ^ s.build.addrW) = false →
    engineStep k s = .next s ∧
    (s.schedule = [] → s.host = [] → (∀ j e', s.engines[j]? = some e' → j ≠ k → e'.phase = .idle) →
      step s = .fault .readNotAdmitted)

/-- 00_scope.md R4, R9, 10_state.md R20: no step changes the build or the number of instances. Nor the launch memory, which
20_memory.md R66 gives to a run as a whole; that no step changes it is the model's choice (log entry 4, DESIGN CHOICE). -/
def Obligations.BuildNeverChanges : Prop :=
  ∀ s t : State, step s = .next t →
    t.build = s.build ∧ t.launch = s.launch ∧ t.engines.length = s.engines.length

/-! ### Dropped commands -/

/-- 60_exceptions.md R166, 30_encoding.md R80: a CMD write of any word to a BUSY instance sets OVERRUN there and changes
nothing else of any engine or of data memory. -/
def Obligations.BusyWriteIsOverrun : Prop :=
  ∀ (s : State) (k : Nat) (w : Word) (rest : List HostOp) (sched : List Event) (e : Engine),
    s.schedule = .host :: sched → s.host = .regWrite k 0#3 w :: rest → s.engines[k]? = some e → e.phase ≠ .idle →
    step s = .next { s with
      schedule := sched, host := rest, port := k, engines := s.engines.set k { e with overrun := true } }

/-- 60_exceptions.md R165, 30_encoding.md R80: a CMD write of an illegal word to an idle instance sets ILLEGAL there and
changes nothing else of any engine or of data memory. -/
def Obligations.IllegalWriteIsDropped : Prop :=
  ∀ (s : State) (k : Nat) (w : Word) (rest : List HostOp) (sched : List Event) (e : Engine),
    s.schedule = .host :: sched → s.host = .regWrite k 0#3 w :: rest → s.engines[k]? = some e → e.phase = .idle →
    (decode s.build w).toOption = none →
    step s = .next { s with
      schedule := sched, host := rest, port := k, engines := s.engines.set k { e with illegal := true } }

/-- 43_instance_ops.md R141, 60_exceptions.md R165: a COPY from an instance that is not READY is dropped as ILLEGAL. -/
def Obligations.CopyFromUnreadyIsIllegal : Prop :=
  ∀ (s : State) (e source : Engine) (src : Byte),
    s.IdlePort e → src.toNat < s.build.nInst → s.engines[src.toNat]? = some source → source.ready = false →
    exec (.copy src) s = .next { s with engines := s.engines.set s.port { e with illegal := true } }

/-- 60_exceptions.md R167: the order of the conditions on a command, on any engine: BUSY, not in the build, COPY source not
READY, CALC_OFS fault, accepted. The model's choices: that `exec` looks at the build again, which no command that has
decoded fails (log entry 11, DESIGN CHOICE), and that the fault records the word as `encode i` (log entry 12, DESIGN
CHOICE). -/
def Obligations.CommandPriority : Prop :=
  ∀ (s : State) (e : Engine) (i : Instr), s.Inv → s.engines[s.port]? = some e →
    (e.phase ≠ .idle → exec i s = .next (s.setEngine s.port { e with overrun := true })) ∧
    (e.phase = .idle → i.wf s.build = false → exec i s = .next (s.setEngine s.port { e with illegal := true })) ∧
    (e.phase = .idle → i.wf s.build = true →
      (∀ src, i = .copy src → (s.engines[src.toNat]?).map Engine.ready = some false →
        exec i s = .next (s.setEngine s.port { e with illegal := true })) ∧
      (∀ ofs start len, i = .calculateOfs ofs start len → len.toNat ≤ ofs.toNat →
        exec i s = .fault (.offsetNotBelowLength s.port (encode i))) ∧
      ((∀ src, i = .copy src → (s.engines[src.toNat]?).map Engine.ready = some true) →
        (∀ ofs start len, i = .calculateOfs ofs start len → ofs.toNat < len.toNat) →
        ∃ e', exec i s = .next (s.setEngine s.port e') ∧ e'.phase ≠ .idle ∧
          e'.illegal = e.illegal ∧ e'.overrun = e.overrun))

/-! ### Acceptance of the four commands -/

/-- 42_calculate.md R120: CALC at an idle instance is accepted: ABASE is BASE, C is XFORM(0, START), that is LUT[START]
under SPEED and T(START) under SIZE, IDX is 0, END is LEN, PHASE is CALC; nothing else changes. -/
def Obligations.CalcAccepted : Prop :=
  ∀ (s : State) (e : Engine) (start len c : Byte), s.IdlePort e →
    (s.build.strategy = .speed → Memory.read e.lut start.toNat = some c) →
    (s.build.strategy = .size → c = polyT start) →
    exec (.calculate start len) s = .next { s with
      engines := s.engines.set s.port { e with
        abase := BitVec.ofNat 32 (e.base.toNat % 2 ^ s.build.addrW),
        c := c, idx := 0x00#8, endIdx := len, phase := .calculate } }

/-- 42_calculate.md R122: CALC_OFS with `ofs < len` at an idle instance is accepted: ABASE is BASE, C is 0, IDX is OFS,
END is LEN, PHASE is CALC; nothing else changes. -/
def Obligations.CalcOfsAccepted : Prop :=
  ∀ (s : State) (e : Engine) (ofs start len : Byte), s.IdlePort e → ofs.toNat < len.toNat →
    exec (.calculateOfs ofs start len) s = .next { s with
      engines := s.engines.set s.port { e with
        abase := BitVec.ofNat 32 (e.base.toNat % 2 ^ s.build.addrW),
        c := 0x00#8, idx := ofs, endIdx := len, phase := .calculate } }

/-- 60_exceptions.md R163: CALC_OFS with `ofs >= len` at an idle instance raises the model fault at acceptance. R161: it
records the instance and the command word; that the word is `encode` of the command is the model's choice (log entry 12,
DESIGN CHOICE). -/
def Obligations.CalcOfsFaultsAtAcceptance : Prop :=
  ∀ (s : State) (e : Engine) (ofs start len : Byte), s.IdlePort e → len.toNat ≤ ofs.toNat →
    exec (.calculateOfs ofs start len) s =
      .fault (.offsetNotBelowLength s.port (encode (.calculateOfs ofs start len)))

/-- 30_encoding.md R89: the START field of CALC_OFS is accepted with any value and has no effect on any state. -/
def Obligations.CalcOfsIgnoresStart : Prop :=
  ∀ (s t : State) (ofs start start' len : Byte),
    decode s.build (encode (.calculateOfs ofs start len)) = .ok (.calculateOfs ofs start len) ∧
    (exec (.calculateOfs ofs start len) s = .next t → exec (.calculateOfs ofs start' len) s = .next t)

/-- 43_instance_ops.md R141: COPY from a READY instance at an idle instance is accepted: the source is latched and PHASE
is COPY; nothing else changes. -/
def Obligations.CopyAccepted : Prop :=
  ∀ (s : State) (e source : Engine) (src : Byte), s.IdlePort e → src.toNat < s.build.nInst →
    s.engines[src.toNat]? = some source → source.ready = true →
    exec (.copy src) s = .next { s with
      engines := s.engines.set s.port { e with lsrc := src, phase := .copy } }

/-- 43_instance_ops.md R144: TEST_WR at an idle instance of a SPEED build with the hook is accepted: entry and value are
latched and PHASE is TWR; nothing else changes. -/
def Obligations.TestWrAccepted : Prop :=
  ∀ (s : State) (e : Engine) (tidx tval : Byte), s.IdlePort e → s.build.testHook = true → s.build.strategy = .speed →
    exec (.testWr tidx tval) s = .next { s with
      engines := s.engines.set s.port { e with ltidx := tidx, ltval := tval, phase := .twr } }

/-- The frame of the four commands (42_calculate.md R120, R122, 43_instance_ops.md R141, R144, 60_exceptions.md R165,
R166): READY, BASE, RESULT, the table and GIDX of the instance behind the port stay; either a status bit is set and
PHASE stays, or PHASE changes and both status bits stay; each hidden register changes only where the command latches it;
every other engine, every byte of data memory, the host's fields and the schedule stay. -/
def Obligations.CommandFrame : Prop :=
  ∀ (i : Instr) (s t : State), exec i s = .next t →
    ∃ e e', s.engines[s.port]? = some e ∧ t.engines[s.port]? = some e' ∧
      (∀ j, j ≠ s.port → t.engines[j]? = s.engines[j]?) ∧ t.engines.length = s.engines.length ∧
      e'.ready = e.ready ∧ e'.base = e.base ∧ e'.result = e.result ∧ e'.lut = e.lut ∧ e'.gidx = e.gidx ∧
      (e'.phase = e.phase ∧ ((e.phase ≠ .idle ∧ e'.overrun = true ∧ e'.illegal = e.illegal) ∨
          (e.phase = .idle ∧ e'.illegal = true ∧ e'.overrun = e.overrun)) ∨
        (e.phase = .idle ∧ e'.phase ≠ .idle ∧ e'.illegal = e.illegal ∧ e'.overrun = e.overrun)) ∧
      (e'.phase ≠ .calculate ∨ e'.phase = e.phase →
        e'.abase = e.abase ∧ e'.c = e.c ∧ e'.idx = e.idx ∧ e'.endIdx = e.endIdx) ∧
      (e'.phase ≠ .copy ∨ e'.phase = e.phase → e'.lsrc = e.lsrc) ∧
      (e'.phase ≠ .twr ∨ e'.phase = e.phase → e'.ltidx = e.ltidx ∧ e'.ltval = e.ltval) ∧
      (∀ a, Memory.read t.mem a = Memory.read s.mem a ∧ t.byteAt a = s.byteAt a) ∧
      t.build = s.build ∧ t.launch = s.launch ∧ t.host = s.host ∧ t.reads = s.reads ∧ t.port = s.port ∧
      t.schedule = s.schedule ∧ t.choices = s.choices

/-! ### The engines' steps -/

/-- 41_lut_gen.md R111: the generation step writes `LUT[GIDX] <- T(GIDX)` and counts GIDX; the step that writes LUT[255]
sets READY and makes the engine idle; it changes no other entry, no other register and no data memory. -/
def Obligations.GenerationStep : Prop :=
  ∀ (s : State) (k : Nat) (e : Engine), s.engines[k]? = some e → e.phase = .gen → e.gidx.toNat < 256 →
    ∃ e', engineStep k s = .next (s.setEngine k e') ∧
      Memory.read e'.lut e.gidx.toNat = some (polyT (BitVec.ofNat 8 e.gidx.toNat)) ∧
      (∀ a, a ≠ e.gidx.toNat → Memory.read e'.lut a = Memory.read e.lut a) ∧
      e'.gidx.toNat = e.gidx.toNat + 1 ∧
      (e.gidx.toNat = 255 → e'.ready = true ∧ e'.phase = .idle) ∧
      (e.gidx.toNat ≠ 255 → e'.ready = e.ready ∧ e'.phase = .gen) ∧
      { e' with lut := e.lut, gidx := e.gidx, ready := e.ready, phase := e.phase } = e

/-- 42_calculate.md R123: the byte step of an engine whose read is admitted folds the byte at `(ABASE + IDX) mod
2^ADDR_W` into C by XFORM and adds 1 to IDX, which does not wrap; nothing else changes. -/
def Obligations.ByteStep : Prop :=
  ∀ (s : State) (k : Nat) (e : Engine) (b c : Byte), s.engines[k]? = some e → e.phase = .calculate →
    e.idx.toNat < e.endIdx.toNat →
    s.admits ((e.abase.toNat + e.idx.toNat) % 2 ^ s.build.addrW) = true →
    b = s.byteAt ((e.abase.toNat + e.idx.toNat) % 2 ^ s.build.addrW) →
    (s.build.strategy = .speed → Memory.read e.lut (e.c ^^^ b).toNat = some c) →
    (s.build.strategy = .size → c = polyT (e.c ^^^ b)) →
    engineStep k s = .next (s.setEngine k { e with c := c, idx := e.idx + 1#8 }) ∧
    (e.idx + 1#8).toNat = e.idx.toNat + 1

/-- 42_calculate.md R124: the completion step writes C to RESULT and makes the engine idle; nothing else changes. In a
state that meets the invariant, IDX is not above END in CALC, so a byte step or the completion step applies. -/
def Obligations.CompletionStep : Prop :=
  ∀ (s : State) (k : Nat) (e : Engine), s.engines[k]? = some e → e.phase = .calculate →
    (e.idx = e.endIdx → engineStep k s = .next (s.setEngine k { e with result := e.c, phase := .idle })) ∧
    (s.Inv → ¬ e.endIdx.toNat < e.idx.toNat)

/-- 43_instance_ops.md R142: the copy step makes the engine idle; under SPEED and from another instance it takes all 256
entries of the source's table as they stand, in one step; else the table stays. Nothing else changes. -/
def Obligations.CopyStep : Prop :=
  ∀ (s : State) (k : Nat) (e : Engine), s.Inv → s.engines[k]? = some e → e.phase = .copy →
    ∃ e', engineStep k s = .next (s.setEngine k e') ∧ e'.phase = .idle ∧
      (s.build.strategy = .speed → e.lsrc.toNat ≠ k →
        ∃ source, s.engines[e.lsrc.toNat]? = some source ∧
          ∀ i : Byte, Memory.read e'.lut i.toNat = Memory.read source.lut i.toNat) ∧
      (s.build.strategy = .size ∨ e.lsrc.toNat = k → e'.lut = e.lut) ∧
      { e' with lut := e.lut, phase := e.phase } = e

/-- 43_instance_ops.md R145: the test-write step writes LTVAL to the entry LTIDX of the engine's own table and makes it
idle; every other entry, RESULT and all other state stay. -/
def Obligations.TestWrStep : Prop :=
  ∀ (s : State) (k : Nat) (e : Engine), s.engines[k]? = some e → e.phase = .twr →
    ∃ e', engineStep k s = .next (s.setEngine k e') ∧
      Memory.read e'.lut e.ltidx.toNat = some e.ltval ∧
      (∀ a, a ≠ e.ltidx.toNat → Memory.read e'.lut a = Memory.read e.lut a) ∧
      e'.phase = .idle ∧ e'.busy = false ∧ e'.result = e.result ∧
      { e' with lut := e.lut, phase := e.phase } = e

/-- 60_exceptions.md R174, 43_instance_ops.md R143, 20_memory.md R61: a step of one engine leaves every other engine, its
table included, every byte of data memory, the host's fields and the schedule as they were. -/
def Obligations.EngineStepTouchesItselfOnly : Prop :=
  ∀ (k : Nat) (s t : State), engineStep k s = .next t →
    (∀ j, j ≠ k → t.engines[j]? = s.engines[j]?) ∧ t.engines.length = s.engines.length ∧
    (∀ a, Memory.read t.mem a = Memory.read s.mem a ∧ t.byteAt a = s.byteAt a) ∧
    t.build = s.build ∧ t.launch = s.launch ∧ t.host = s.host ∧ t.reads = s.reads ∧ t.port = s.port ∧
    t.schedule = s.schedule ∧ t.choices = s.choices

/-! ### The register window, data memory and reset -/

/-- 10_state.md R22 to R30: what a host read of each register returns, BASE with zeros from bit ADDR_W on in a state that
meets the invariant; the read changes nothing but the host's own record. -/
def Obligations.RegisterReads : Prop :=
  ∀ (s : State) (k : Nat) (e : Engine) (r : BitVec 3), s.engines[k]? = some e →
    ∃ v : Word, hostOp (.regRead k r) s = .next { s with reads := s.reads ++ [v] } ∧
      (r = 0#3 → v = 0x00000000#32) ∧
      (r = 1#3 → v.getLsbD 0 = e.ready ∧ (v.getLsbD 1 = true ↔ e.phase ≠ .idle) ∧ v.getLsbD 2 = e.illegal ∧
        v.getLsbD 3 = e.overrun ∧ v.extractLsb' 4 28 = 0#28) ∧
      (r = 2#3 → v = e.base ∧ (s.Inv → ∀ i, s.build.addrW ≤ i → v.getLsbD i = false)) ∧
      (r = 3#3 → v.extractLsb' 0 8 = e.result ∧ v.extractLsb' 8 24 = 0#24) ∧
      (r = 4#3 → v.extractLsb' 0 2 = (match s.build.strategy with | .speed => 0#2 | .size => 1#2) ∧
        v.getLsbD 2 = s.build.testHook ∧ v.extractLsb' 3 5 = 0#5 ∧ v.extractLsb' 8 8 = 0xD5#8 ∧
        v.extractLsb' 16 8 = BitVec.ofNat 8 k ∧ v.extractLsb' 24 8 = BitVec.ofNat 8 (s.build.nInst - 1)) ∧
      (5 ≤ r.toNat → v = 0x00000000#32)

/-- 10_state.md R24, R27, R28, R29: a host write to STATUS clears ILLEGAL and OVERRUN where bits 2 and 3 of the word are
1 and changes nothing else; a write to BASE stores the word's low ADDR_W bits, zero-extended; writes to RESULT and CONFIG
are ignored. -/
def Obligations.RegisterWrites : Prop :=
  ∀ (s : State) (k : Nat) (e : Engine) (w : Word), s.engines[k]? = some e →
    hostOp (.regWrite k 1#3 w) s = .next (s.setEngine k { e with
      illegal := if w.getLsbD 2 = true then false else e.illegal,
      overrun := if w.getLsbD 3 = true then false else e.overrun }) ∧
    (∃ v : Word, hostOp (.regWrite k 2#3 w) s = .next (s.setEngine k { e with base := v }) ∧
      v.toNat = w.toNat % 2 ^ s.build.addrW) ∧
    hostOp (.regWrite k 3#3 w) s = .next s ∧
    hostOp (.regWrite k 4#3 w) s = .next s

/-- 10_state.md R30: the reserved register indices 5, 6 and 7 read as 0, and writes to them are ignored. -/
def Obligations.ReservedRegisters : Prop :=
  ∀ (s : State) (k : Nat) (e : Engine) (r : BitVec 3) (w : Word), s.engines[k]? = some e →
    (r = 5#3 ∨ r = 6#3 ∨ r = 7#3) →
    hostOp (.regRead k r) s = .next { s with reads := s.reads ++ [0x00000000#32] } ∧
    hostOp (.regWrite k r w) s = .next s

/-- 30_encoding.md R92: a POLL whose register does not show the awaited value stays the host's next transaction and
changes nothing; one that does ends. -/
def Obligations.PollRepeatsUntilSeen : Prop :=
  ∀ (s : State) (k : Nat) (e : Engine) (r : BitVec 3) (mask value : Word) (rest : List HostOp),
    s.host = .poll k r mask value :: rest → s.engines[k]? = some e →
    (e.readReg s.build k r &&& mask ≠ value → hostStep s = .next s) ∧
    (e.readReg s.build k r &&& mask = value → hostStep s = .next { s with host := rest })

/-- 20_memory.md R60, R73: a host write of a data-memory byte is what the next read of that address returns, and no other
address changes. -/
def Obligations.DataWriteThenRead : Prop :=
  ∀ (s : State) (a : Word) (b : Byte), a.toNat < 2 ^ s.build.addrW →
    ∃ t, hostOp (.dataWrite a b) s = .next t ∧ t.byteAt a.toNat = b ∧
      (∀ a', a' ≠ a.toNat → t.byteAt a' = s.byteAt a') ∧ t = { s with mem := t.mem } ∧
      hostOp (.dataRead a) t = .next { t with reads := t.reads ++ [b.setWidth 32] }

/-- 20_memory.md R60, R61: only a host data write changes what a byte of data memory is, and only at its address. -/
def Obligations.OnlyHostWritesDataMemory : Prop :=
  ∀ (ev : Event) (s t : State), runEvent ev s = .next t → ∀ a, t.byteAt a ≠ s.byteAt a →
    ∃ (addr : Word) (b : Byte) (rest : List HostOp), ev = .host ∧ s.host = .dataWrite addr b :: rest ∧ a = addr.toNat ∧
      t.byteAt a = b

/-- 10_state.md R40: after reset every piece of state of every instance holds its reset value, CMD reads 0 and CONFIG its
constant, and data memory is unchanged. -/
def Obligations.ResetValues : Prop :=
  ∀ (s : State) (k : Nat) (e : Engine), s.applyReset.engines[k]? = some e →
    e.ready = decide (s.build.strategy = .size) ∧ e.busy = decide (s.build.strategy = .speed) ∧
    e.illegal = false ∧ e.overrun = false ∧ e.statusWord.extractLsb' 4 28 = 0#28 ∧
    e.base = 0#32 ∧ e.result = 0x00#8 ∧ e.readReg s.build k 3#3 = 0#32 ∧
    e.readReg s.build k 4#3 = configWord s.build k ∧ e.readReg s.build k 0#3 = 0#32 ∧
    (∀ i, Memory.read e.lut i = none) ∧
    (s.build.strategy = .speed → e.phase = .gen) ∧ (s.build.strategy = .size → e.phase = .idle) ∧
    e.gidx = 0#9 ∧ e.abase = 0#32 ∧ e.c = 0x00#8 ∧ e.idx = 0x00#8 ∧ e.endIdx = 0x00#8 ∧
    e.lsrc = 0x00#8 ∧ e.ltidx = 0x00#8 ∧ e.ltval = 0x00#8 ∧
    s.applyReset.mem = s.mem

/-- 70_reset_and_hazards.md R180, R181: a reset, whatever the engines are doing, gives every engine its reset values, so
that a calculate in progress leaves no RESULT and generation starts again; data memory and all else stay. -/
def Obligations.ResetAbandonsOperations : Prop :=
  ∀ (s : State) (sched : List Event), s.schedule = .reset :: sched →
    ∃ t, step s = .next t ∧ t.engines = List.replicate s.engines.length (Engine.reset s.build) ∧
      t = { s with engines := t.engines, schedule := sched }

/-- 60_exceptions.md R160: a build with the hardware strategy does not elaborate, the diagnostic names the strategy, and
no machine exists. 00_scope.md R4, R9: one with SPEED or SIZE and parameters in range does elaborate, to the build of those
parameters, and comes up as the reset machine of that build (whose host, launch memory, port and schedule are the model's
choices, log entries 3 to 7). -/
def Obligations.HardwareStrategyRejected : Prop :=
  ∀ p : Params,
    (p.strategy = .hardware → elaborate p = .error .hardwareStrategy ∧ (boot p).toOption = none) ∧
    (1 ≤ p.nInst → p.nInst ≤ 256 → 1 ≤ p.addrW → p.addrW ≤ 32 →
      (p.strategy = .speed → elaborate p = .ok ⟨.speed, p.testHook, p.nInst, p.addrW⟩ ∧
        boot p = .ok (State.resetOf ⟨.speed, p.testHook, p.nInst, p.addrW⟩)) ∧
      (p.strategy = .size → elaborate p = .ok ⟨.size, p.testHook, p.nInst, p.addrW⟩ ∧
        boot p = .ok (State.resetOf ⟨.size, p.testHook, p.nInst, p.addrW⟩)))

/-! ### Invariants and whole-machine rules -/

/-- The invariant holds right after reset, in every legal build (10_state.md R40). It also says that the port is in range
and that nothing is written to data memory, which are the model's choices for reset (log entries 5 and 7). -/
def Obligations.ResetMeetsInv : Prop :=
  ∀ b : Build, b.Ok → (State.resetOf b).Inv

/-- Every step keeps the invariant: the memories stay in canonical form and in range, address registers in ADDR_W bits,
READY exactly outside GEN, a READY table full, IDX at most END in CALC, a pending COPY's source READY
(10_state.md R25, R27, R33 to R35, 42_calculate.md R124, 43_instance_ops.md R141). -/
def Obligations.StepKeepsInv : Prop :=
  ∀ s t : State, s.Inv → step s = .next t → t.Inv

/-- 10_state.md R33, 60_exceptions.md R164: no step from a state that meets the invariant reads an unwritten table
entry. -/
def Obligations.NoUnwrittenTableRead : Prop :=
  ∀ s : State, s.Inv → ∀ k i, step s ≠ .fault (.unwrittenLutRead k i)

/-- 10_state.md R26: STATUS.BUSY is 1 exactly while PHASE is not IDLE, and (READY, BUSY) is (0, 1) during generation,
(1, 0) when idle and (1, 1) while a command runs, so never (0, 0). -/
def Obligations.ReadyBusyPairs : Prop :=
  ∀ s : State, s.Inv → ∀ e ∈ s.engines,
    (e.statusWord.getLsbD 1 = true ↔ e.phase ≠ .idle) ∧
    (e.phase = .gen → e.statusWord.getLsbD 0 = false ∧ e.statusWord.getLsbD 1 = true) ∧
    (e.phase = .idle → e.statusWord.getLsbD 0 = true ∧ e.statusWord.getLsbD 1 = false) ∧
    (e.phase = .calculate ∨ e.phase = .copy ∨ e.phase = .twr →
      e.statusWord.getLsbD 0 = true ∧ e.statusWord.getLsbD 1 = true) ∧
    ¬ (e.statusWord.getLsbD 0 = false ∧ e.statusWord.getLsbD 1 = false)

/-- 10_state.md R25: READY once 1 stays 1 until a reset. -/
def Obligations.ReadyStays : Prop :=
  ∀ (ev : Event) (s t : State) (k : Nat) (e e' : Engine), runEvent ev s = .next t →
    s.engines[k]? = some e → t.engines[k]? = some e' → e.ready = true → e'.ready = false → ev = .reset

/-- 10_state.md R24, 60_exceptions.md R165, R166: ILLEGAL and OVERRUN once 1 stay 1 until the host writes STATUS with
their bit set, or a reset. -/
def Obligations.StatusErrorsAreSticky : Prop :=
  ∀ (ev : Event) (s t : State) (k : Nat) (e e' : Engine), runEvent ev s = .next t →
    s.engines[k]? = some e → t.engines[k]? = some e' →
    (e.illegal = true → e'.illegal = false →
      ev = .reset ∨ ∃ w rest, ev = .host ∧ s.host = .regWrite k 1#3 w :: rest ∧ w.getLsbD 2 = true) ∧
    (e.overrun = true → e'.overrun = false →
      ev = .reset ∨ ∃ w rest, ev = .host ∧ s.host = .regWrite k 1#3 w :: rest ∧ w.getLsbD 3 = true)

/-- 10_state.md R28: only the completion step of a calculate, and reset, change RESULT. -/
def Obligations.OnlyCompletionWritesResult : Prop :=
  ∀ (ev : Event) (s t : State) (k : Nat) (e e' : Engine), runEvent ev s = .next t →
    s.engines[k]? = some e → t.engines[k]? = some e' → e'.result ≠ e.result →
    ev = .reset ∨ (ev = .engine k ∧ e.phase = .calculate ∧ e.idx = e.endIdx ∧ e'.result = e.c ∧ e'.phase = .idle)

/-- 10_state.md R32: only a generation step, a copy step or a test-write step of the engine itself, and reset, change its
lookup table. -/
def Obligations.OnlyThreeStepsWriteTable : Prop :=
  ∀ (ev : Event) (s t : State) (k : Nat) (e e' : Engine), runEvent ev s = .next t →
    s.engines[k]? = some e → t.engines[k]? = some e' → e'.lut ≠ e.lut →
    ev = .reset ∨ (ev = .engine k ∧ (e.phase = .gen ∨ e.phase = .copy ∨ e.phase = .twr))

/-- 10_state.md R27, 42_calculate.md R120, R122: while a calculate runs, a host write to BASE, or to any other register
of its instance, leaves what the command reads and where it ends as they were. -/
def Obligations.RunningCalculateKeepsOperands : Prop :=
  ∀ (s t : State) (k : Nat) (e e' : Engine), runEvent .host s = .next t →
    s.engines[k]? = some e → t.engines[k]? = some e' → e.phase = .calculate →
    e'.abase = e.abase ∧ e'.c = e.c ∧ e'.idx = e.idx ∧ e'.endIdx = e.endIdx ∧ e'.phase = .calculate

/-- 10_state.md R32, 41_lut_gen.md R111, R112: in a build without the test hook every written table entry stays `T(i)`,
whatever is run; and in any build so does every written entry of a table that is being generated. -/
def Obligations.TablesStayGenerated : Prop :=
  ∀ s t : State, s.Inv → step s = .next t →
    (s.build.testHook = false → s.TablesGenerated → t.TablesGenerated) ∧
    ((∀ e ∈ s.engines, e.phase = .gen → TableGenerated e.lut) →
      ∀ e ∈ t.engines, e.phase = .gen → e.GenOk t.build ∧ TableGenerated e.lut)

/-! ### The transform -/

/-- 40_poly_transform.md R106: `T` is linear over XOR, `T(0) = 0`, and its values on the eight single-bit inputs, which fix
every other value. -/
def Obligations.TransformIsLinear : Prop :=
  (∀ a b : Byte, polyT (a ^^^ b) = polyT a ^^^ polyT b) ∧ polyT 0x00#8 = 0x00#8 ∧
  polyT 0x01#8 = 0xD5#8 ∧ polyT 0x02#8 = 0x7F#8 ∧ polyT 0x04#8 = 0xFE#8 ∧ polyT 0x08#8 = 0x29#8 ∧
  polyT 0x10#8 = 0x52#8 ∧ polyT 0x20#8 = 0xA4#8 ∧ polyT 0x40#8 = 0x9D#8 ∧ polyT 0x80#8 = 0xEF#8

/-- 40_poly_transform.md R106: `T` takes different values at different inputs. -/
def Obligations.TransformIsInjective : Prop :=
  ∀ a b : Byte, polyT a = polyT b → a = b

/-- 40_poly_transform.md R103, R102: where the table is full and every entry is `T(i)`, XFORM is xform under both
strategies. -/
def Obligations.XformByIsXform : Prop :=
  ∀ (b : Build) (lut : Memory) (c x : Byte), (b.strategy = .speed → TableFull lut ∧ TableGenerated lut) →
    xformBy b lut c x = some (xform c x)

/-! ### Whole commands -/

/-- 41_lut_gen.md R111, R112: from reset, under SPEED, the 256th generation step of an instance leaves `LUT[i] = T(i)` for
every `i`, READY = 1 and the instance idle; before it the instance is BUSY and not READY; nothing else changes. -/
def Obligations.GenerationBuildsTable : Prop :=
  ∀ (b : Build) (k : Nat), b.Ok → b.strategy = .speed → k < b.nInst →
    (∀ n < 256, ∃ t e, runEngine k n (State.resetOf b) = .next t ∧ t.engines[k]? = some e ∧
      e.ready = false ∧ e.busy = true) ∧
    ∃ e, runEngine k 256 (State.resetOf b) = .next ((State.resetOf b).setEngine k e) ∧
      e.ready = true ∧ e.phase = .idle ∧ e.gidx = 256#9 ∧
      (∀ i : Byte, Memory.read e.lut i.toNat = some (polyT i)) ∧ e.result = 0x00#8

/-- 42_calculate.md R125, R127, R132: an accepted CALC whose reads are admitted ends after LEN byte steps and one completion
step with RESULT = the fold of `data[0 .. LEN-1]` by XFORM, from XFORM(0, START), and the instance idle; it changes
no table, no status error bit and no other engine. -/
def Obligations.CalcResult : Prop :=
  ∀ (s : State) (e : Engine) (start len : Byte), s.Inv → s.IdlePort e → s.AdmitsBuffer e.base 0 len.toNat →
    ∃ t e', exec (.calculate start len) s = .next t ∧
      runEngine s.port (len.toNat + 1) t = .next (s.setEngine s.port e') ∧ e'.phase = .idle ∧
      ((xformBy s.build e.lut 0x00#8 start).bind fun c =>
        foldBy s.build e.lut c (s.buffer e.base 0 len.toNat)) = some e'.result ∧
      e'.lut = e.lut ∧ e'.base = e.base ∧ e'.ready = e.ready ∧ e'.illegal = e.illegal ∧ e'.overrun = e.overrun

/-- 42_calculate.md R126, R127, R132: an accepted CALC_OFS whose reads are admitted ends after LEN - OFS byte steps and one
completion step with RESULT = the fold of `data[OFS .. LEN-1]` by XFORM, from 0; START has no part in it. -/
def Obligations.CalcOfsResult : Prop :=
  ∀ (s : State) (e : Engine) (ofs start len : Byte), s.Inv → s.IdlePort e → ofs.toNat < len.toNat →
    s.AdmitsBuffer e.base ofs.toNat (len.toNat - ofs.toNat) →
    ∃ t e', exec (.calculateOfs ofs start len) s = .next t ∧
      runEngine s.port (len.toNat - ofs.toNat + 1) t = .next (s.setEngine s.port e') ∧ e'.phase = .idle ∧
      foldBy s.build e.lut 0x00#8 (s.buffer e.base ofs.toNat (len.toNat - ofs.toNat)) = some e'.result ∧
      e'.lut = e.lut ∧ e'.base = e.base ∧ e'.ready = e.ready ∧ e'.illegal = e.illegal ∧ e'.overrun = e.overrun

/-- 10_state.md R26, R28: until its completion step an accepted CALC, or CALC_OFS, shows BUSY = 1 and the previous
RESULT. -/
def Obligations.CalcBusyUntilComplete : Prop :=
  ∀ (s : State) (e : Engine), s.Inv → s.IdlePort e →
    (∀ start len : Byte, s.AdmitsBuffer e.base 0 len.toNat →
      ∀ n ≤ len.toNat, ∃ t u e', exec (.calculate start len) s = .next t ∧ runEngine s.port n t = .next u ∧
        u.engines[s.port]? = some e' ∧ e'.busy = true ∧ e'.ready = e.ready ∧ e'.result = e.result ∧
        e'.idx.toNat = n) ∧
    (∀ ofs start len : Byte, ofs.toNat < len.toNat → s.AdmitsBuffer e.base ofs.toNat (len.toNat - ofs.toNat) →
      ∀ n ≤ len.toNat - ofs.toNat, ∃ t u e', exec (.calculateOfs ofs start len) s = .next t ∧
        runEngine s.port n t = .next u ∧ u.engines[s.port]? = some e' ∧ e'.busy = true ∧ e'.ready = e.ready ∧
        e'.result = e.result ∧ e'.idx.toNat = ofs.toNat + n)

/-- 42_calculate.md R128, 40_poly_transform.md R103: with intact tables the RESULT of CALC is the fold of START and the
data bytes from 0 by the transform, under either strategy. -/
def Obligations.CalcClosedForm : Prop :=
  ∀ (s : State) (e : Engine) (start len : Byte), s.Inv → s.TablesGenerated → s.IdlePort e →
    s.AdmitsBuffer e.base 0 len.toNat →
    ∃ t e', exec (.calculate start len) s = .next t ∧
      runEngine s.port (len.toNat + 1) t = .next (s.setEngine s.port e') ∧
      e'.result = foldXform (polyT start) (s.buffer e.base 0 len.toNat) ∧
      e'.result = foldXform 0x00#8 (start :: s.buffer e.base 0 len.toNat) ∧
      e'.result = foldXform start (0x00#8 :: s.buffer e.base 0 len.toNat)

/-- 42_calculate.md R130: two machines of different builds with intact tables, the same address width, the same data
memory and the same BASE give the same RESULT for the same CALC, and for the same CALC_OFS, whatever their strategies. -/
def Obligations.StrategiesAgree : Prop :=
  ∀ (s₁ s₂ : State) (e₁ e₂ : Engine),
    s₁.Inv → s₂.Inv → s₁.TablesGenerated → s₂.TablesGenerated → s₁.IdlePort e₁ → s₂.IdlePort e₂ →
    s₁.build.addrW = s₂.build.addrW → s₁.mem = s₂.mem → e₁.base = e₂.base →
    (∀ start len : Byte, s₁.AdmitsBuffer e₁.base 0 len.toNat → s₂.AdmitsBuffer e₂.base 0 len.toNat →
      ∃ t₁ t₂ e₁' e₂', exec (.calculate start len) s₁ = .next t₁ ∧ exec (.calculate start len) s₂ = .next t₂ ∧
        runEngine s₁.port (len.toNat + 1) t₁ = .next (s₁.setEngine s₁.port e₁') ∧
        runEngine s₂.port (len.toNat + 1) t₂ = .next (s₂.setEngine s₂.port e₂') ∧ e₁'.result = e₂'.result) ∧
    (∀ ofs start len : Byte, ofs.toNat < len.toNat →
      s₁.AdmitsBuffer e₁.base ofs.toNat (len.toNat - ofs.toNat) →
      s₂.AdmitsBuffer e₂.base ofs.toNat (len.toNat - ofs.toNat) →
      ∃ t₁ t₂ e₁' e₂', exec (.calculateOfs ofs start len) s₁ = .next t₁ ∧
        exec (.calculateOfs ofs start len) s₂ = .next t₂ ∧
        runEngine s₁.port (len.toNat - ofs.toNat + 1) t₁ = .next (s₁.setEngine s₁.port e₁') ∧
        runEngine s₂.port (len.toNat - ofs.toNat + 1) t₂ = .next (s₂.setEngine s₂.port e₂') ∧
        e₁'.result = e₂'.result)

/-- 42_calculate.md R129: with intact tables, CALC_OFS(ofs, X, len) gives the RESULT of CALC(data[ofs], len - ofs - 1) on
the buffer that starts at `data[ofs+1]`, that is on the same machine with BASE moved there. -/
def Obligations.OffsetVariantConsistency : Prop :=
  ∀ (s : State) (e : Engine) (ofs start len : Byte) (moved : Word), s.Inv → s.TablesGenerated → s.IdlePort e →
    ofs.toNat < len.toNat → s.AdmitsBuffer e.base ofs.toNat (len.toNat - ofs.toNat) →
    moved.toNat = (e.base.toNat + ofs.toNat + 1) % 2 ^ s.build.addrW →
    ∃ t₁ t₂ e₁ e₂, exec (.calculateOfs ofs start len) s = .next t₁ ∧
      exec (.calculate (s.byteAt (elementAddr s.build e.base ofs.toNat)) (len - ofs - 1#8))
        (s.setEngine s.port { e with base := moved }) = .next t₂ ∧
      runEngine s.port (len.toNat - ofs.toNat + 1) t₁ = .next (s.setEngine s.port e₁) ∧
      runEngine s.port (len.toNat - ofs.toNat) t₂ = .next (s.setEngine s.port e₂) ∧ e₁.result = e₂.result

/-- 00_scope.md R12, 60_exceptions.md R174, 42_calculate.md R131: an accepted CALC, or CALC_OFS, gives its RESULT under every
interleaving of its steps with steps of the other engines, whatever those are doing. -/
def Obligations.InterleavedCalcResult : Prop :=
  ∀ (s t : State) (e : Engine) (evs : List Event), s.Inv → s.IdlePort e → (∀ ev ∈ evs, ∃ j, ev = .engine j) →
    (∀ start len : Byte, s.AdmitsBuffer e.base 0 len.toNat → exec (.calculate start len) s = .next t →
      evs.count (.engine s.port) = len.toNat + 1 →
      ∃ u e', runEvents evs t = .next u ∧ u.engines[s.port]? = some e' ∧ e'.phase = .idle ∧
        ((xformBy s.build e.lut 0x00#8 start).bind fun c =>
          foldBy s.build e.lut c (s.buffer e.base 0 len.toNat)) = some e'.result ∧ e'.lut = e.lut) ∧
    (∀ ofs start len : Byte, ofs.toNat < len.toNat → s.AdmitsBuffer e.base ofs.toNat (len.toNat - ofs.toNat) →
      exec (.calculateOfs ofs start len) s = .next t → evs.count (.engine s.port) = len.toNat - ofs.toNat + 1 →
      ∃ u e', runEvents evs t = .next u ∧ u.engines[s.port]? = some e' ∧ e'.phase = .idle ∧
        foldBy s.build e.lut 0x00#8 (s.buffer e.base ofs.toNat (len.toNat - ofs.toNat)) = some e'.result ∧
        e'.lut = e.lut)

/-- 43_instance_ops.md R141, R142, R143: an accepted COPY from another instance, and its one execute step, leave the
destination idle with the source's 256 entries and its RESULT as it was. From then on the two are independent: no step of
one engine changes the other, and a TEST_WR to either changes its own table and leaves the other engine as it was. -/
def Obligations.CopyIsDeep : Prop :=
  ∀ (s : State) (e source : Engine) (src : Byte), s.Inv → s.build.strategy = .speed → s.IdlePort e →
    src.toNat < s.build.nInst → src.toNat ≠ s.port → s.engines[src.toNat]? = some source → source.ready = true →
    ∃ t e', exec (.copy src) s = .next t ∧ engineStep s.port t = .next (s.setEngine s.port e') ∧
      e'.phase = .idle ∧ e'.result = e.result ∧
      (∀ i : Byte, Memory.read e'.lut i.toNat = Memory.read source.lut i.toNat) ∧
      (∀ u v, u.engines[s.port]? = some e' → engineStep src.toNat u = .next v → v.engines[s.port]? = some e') ∧
      (∀ u v, u.engines[src.toNat]? = some source → engineStep s.port u = .next v →
        v.engines[src.toNat]? = some source) ∧
      (s.build.testHook = true → ∀ tidx tval : Byte,
        (∃ v w x, exec (.testWr tidx tval) (s.setEngine s.port e') = .next v ∧ engineStep s.port v = .next w ∧
          w.engines[s.port]? = some x ∧ Memory.read x.lut tidx.toNat = some tval ∧
          w.engines[src.toNat]? = some source) ∧
        (source.phase = .idle →
          ∃ v w x, exec (.testWr tidx tval) { s.setEngine s.port e' with port := src.toNat } = .next v ∧
            engineStep src.toNat v = .next w ∧ w.engines[src.toNat]? = some x ∧
            Memory.read x.lut tidx.toNat = some tval ∧ w.engines[s.port]? = some e'))

/-- 43_instance_ops.md R144, R145, 42_calculate.md R125: an accepted TEST_WR and its execute step change one entry, and a
later CALC with that entry's index as START and no data gives the written value. -/
def Obligations.TestWrShowsInResult : Prop :=
  ∀ (s : State) (e : Engine) (tidx tval : Byte), s.IdlePort e → s.build.testHook = true →
    s.build.strategy = .speed →
    ∃ t u v w e', exec (.testWr tidx tval) s = .next t ∧ engineStep s.port t = .next u ∧
      exec (.calculate tidx 0#8) u = .next v ∧ engineStep s.port v = .next w ∧
      w.engines[s.port]? = some e' ∧ e'.phase = .idle ∧ e'.result = tval ∧
      ∀ a, a ≠ tidx.toNat → Memory.read e'.lut a = Memory.read e.lut a

/-! ### Races -/

/-- 20_memory.md R73, R75: a host write to the byte that a running calculate reads next is a race with two outcomes: a
byte step before the write folds the old byte, one after it folds the new byte; both orders can run. -/
def Obligations.BufferRaceHasBothOutcomes : Prop :=
  ∀ (s : State) (k : Nat) (e : Engine) (a : Word) (b cOld cNew : Byte) (rest : List HostOp),
    s.engines[k]? = some e → e.phase = .calculate → e.idx.toNat < e.endIdx.toNat →
    a.toNat = (e.abase.toNat + e.idx.toNat) % 2 ^ s.build.addrW → s.admits a.toNat = true →
    xformBy s.build e.lut e.c (s.byteAt a.toNat) = some cOld → xformBy s.build e.lut e.c b = some cNew →
    s.host = .dataWrite a b :: rest →
    (∃ t, runEvents [.engine k, .host] s = .next t ∧ (t.engines[k]?).map Engine.c = some cOld ∧
      t.byteAt a.toNat = b) ∧
    (∃ t, runEvents [.host, .engine k] s = .next t ∧ (t.engines[k]?).map Engine.c = some cNew ∧
      t.byteAt a.toNat = b)

/-- 70_reset_and_hazards.md R188: where one instance's TEST_WR and another's COPY from it wait for their execute steps,
the copy before the write takes the old entry and the copy after it the new one; both orders can run. -/
def Obligations.CopyRaceHasBothOutcomes : Prop :=
  ∀ (s : State) (j k : Nat) (source e : Engine), s.build.strategy = .speed → j ≠ k →
    s.engines[j]? = some source → source.phase = .twr → TableFull source.lut →
    s.engines[k]? = some e → e.phase = .copy → e.lsrc.toNat = j →
    (∃ t e', runEvents [.engine k, .engine j] s = .next t ∧ t.engines[k]? = some e' ∧ e'.phase = .idle ∧
      Memory.read e'.lut source.ltidx.toNat = Memory.read source.lut source.ltidx.toNat) ∧
    (∃ t e', runEvents [.engine j, .engine k] s = .next t ∧ t.engines[k]? = some e' ∧ e'.phase = .idle ∧
      Memory.read e'.lut source.ltidx.toNat = some source.ltval)
end

