-- ==== Sys2Proof/Laws/State.lean ====
section
/-! SUPPORT. One lemma per field per named update of State and Engine, so that no proof unfolds a record update. -/

namespace Sys2Proof.Machine

section StateUpdates

variable (s : State) (k : Nat) (e : Engine)

@[simp] theorem State.setEngine_build : (s.setEngine k e).build = s.build := rfl
@[simp] theorem State.setEngine_engines : (s.setEngine k e).engines = s.engines.set k e := rfl
@[simp] theorem State.setEngine_mem : (s.setEngine k e).mem = s.mem := rfl
@[simp] theorem State.setEngine_launch : (s.setEngine k e).launch = s.launch := rfl
@[simp] theorem State.setEngine_host : (s.setEngine k e).host = s.host := rfl
@[simp] theorem State.setEngine_reads : (s.setEngine k e).reads = s.reads := rfl
@[simp] theorem State.setEngine_port : (s.setEngine k e).port = s.port := rfl
@[simp] theorem State.setEngine_schedule : (s.setEngine k e).schedule = s.schedule := rfl
@[simp] theorem State.setEngine_choices : (s.setEngine k e).choices = s.choices := rfl
@[simp] theorem State.applyReset_build : s.applyReset.build = s.build := rfl
@[simp] theorem State.applyReset_engines : s.applyReset.engines = s.engines.map fun _ => Engine.reset s.build := rfl
@[simp] theorem State.applyReset_mem : s.applyReset.mem = s.mem := rfl
@[simp] theorem State.applyReset_launch : s.applyReset.launch = s.launch := rfl
@[simp] theorem State.applyReset_host : s.applyReset.host = s.host := rfl
@[simp] theorem State.applyReset_reads : s.applyReset.reads = s.reads := rfl
@[simp] theorem State.applyReset_port : s.applyReset.port = s.port := rfl
@[simp] theorem State.applyReset_schedule : s.applyReset.schedule = s.schedule := rfl
@[simp] theorem State.applyReset_choices : s.applyReset.choices = s.choices := rfl

@[simp] theorem State.useMove_build : s.useMove.build = s.build := by unfold State.useMove; split <;> rfl
@[simp] theorem State.useMove_engines : s.useMove.engines = s.engines := by unfold State.useMove; split <;> rfl
@[simp] theorem State.useMove_mem : s.useMove.mem = s.mem := by unfold State.useMove; split <;> rfl
@[simp] theorem State.useMove_launch : s.useMove.launch = s.launch := by unfold State.useMove; split <;> rfl
@[simp] theorem State.useMove_host : s.useMove.host = s.host := by unfold State.useMove; split <;> rfl
@[simp] theorem State.useMove_reads : s.useMove.reads = s.reads := by unfold State.useMove; split <;> rfl
@[simp] theorem State.useMove_port : s.useMove.port = s.port := by unfold State.useMove; split <;> rfl
@[simp] theorem State.useMove_schedule : s.useMove.schedule = s.schedule.tail := by
  unfold State.useMove; split <;> simp_all

end StateUpdates

section EngineUpdates

variable (b : Build) (e : Engine) (w : Word) (c idx endIdx : Byte)

@[simp] theorem Engine.setIllegal_ready : e.setIllegal.ready = e.ready := rfl
@[simp] theorem Engine.setIllegal_illegal : e.setIllegal.illegal = true := rfl
@[simp] theorem Engine.setIllegal_overrun : e.setIllegal.overrun = e.overrun := rfl
@[simp] theorem Engine.setIllegal_base : e.setIllegal.base = e.base := rfl
@[simp] theorem Engine.setIllegal_result : e.setIllegal.result = e.result := rfl
@[simp] theorem Engine.setIllegal_lut : e.setIllegal.lut = e.lut := rfl
@[simp] theorem Engine.setIllegal_phase : e.setIllegal.phase = e.phase := rfl
@[simp] theorem Engine.setIllegal_gidx : e.setIllegal.gidx = e.gidx := rfl
@[simp] theorem Engine.setIllegal_abase : e.setIllegal.abase = e.abase := rfl
@[simp] theorem Engine.setIllegal_c : e.setIllegal.c = e.c := rfl
@[simp] theorem Engine.setIllegal_idx : e.setIllegal.idx = e.idx := rfl
@[simp] theorem Engine.setIllegal_endIdx : e.setIllegal.endIdx = e.endIdx := rfl
@[simp] theorem Engine.setIllegal_lsrc : e.setIllegal.lsrc = e.lsrc := rfl
@[simp] theorem Engine.setIllegal_ltidx : e.setIllegal.ltidx = e.ltidx := rfl
@[simp] theorem Engine.setIllegal_ltval : e.setIllegal.ltval = e.ltval := rfl
@[simp] theorem Engine.setOverrun_ready : e.setOverrun.ready = e.ready := rfl
@[simp] theorem Engine.setOverrun_illegal : e.setOverrun.illegal = e.illegal := rfl
@[simp] theorem Engine.setOverrun_overrun : e.setOverrun.overrun = true := rfl
@[simp] theorem Engine.setOverrun_base : e.setOverrun.base = e.base := rfl
@[simp] theorem Engine.setOverrun_result : e.setOverrun.result = e.result := rfl
@[simp] theorem Engine.setOverrun_lut : e.setOverrun.lut = e.lut := rfl
@[simp] theorem Engine.setOverrun_phase : e.setOverrun.phase = e.phase := rfl
@[simp] theorem Engine.setOverrun_gidx : e.setOverrun.gidx = e.gidx := rfl
@[simp] theorem Engine.setOverrun_abase : e.setOverrun.abase = e.abase := rfl
@[simp] theorem Engine.setOverrun_c : e.setOverrun.c = e.c := rfl
@[simp] theorem Engine.setOverrun_idx : e.setOverrun.idx = e.idx := rfl
@[simp] theorem Engine.setOverrun_endIdx : e.setOverrun.endIdx = e.endIdx := rfl
@[simp] theorem Engine.setOverrun_lsrc : e.setOverrun.lsrc = e.lsrc := rfl
@[simp] theorem Engine.setOverrun_ltidx : e.setOverrun.ltidx = e.ltidx := rfl
@[simp] theorem Engine.setOverrun_ltval : e.setOverrun.ltval = e.ltval := rfl
@[simp] theorem Engine.clearStatus_ready : (e.clearStatus w).ready = e.ready := rfl
@[simp] theorem Engine.clearStatus_illegal : (e.clearStatus w).illegal = (e.illegal && !w.getLsbD 2) := rfl
@[simp] theorem Engine.clearStatus_overrun : (e.clearStatus w).overrun = (e.overrun && !w.getLsbD 3) := rfl
@[simp] theorem Engine.clearStatus_base : (e.clearStatus w).base = e.base := rfl
@[simp] theorem Engine.clearStatus_result : (e.clearStatus w).result = e.result := rfl
@[simp] theorem Engine.clearStatus_lut : (e.clearStatus w).lut = e.lut := rfl
@[simp] theorem Engine.clearStatus_phase : (e.clearStatus w).phase = e.phase := rfl
@[simp] theorem Engine.clearStatus_gidx : (e.clearStatus w).gidx = e.gidx := rfl
@[simp] theorem Engine.clearStatus_abase : (e.clearStatus w).abase = e.abase := rfl
@[simp] theorem Engine.clearStatus_c : (e.clearStatus w).c = e.c := rfl
@[simp] theorem Engine.clearStatus_idx : (e.clearStatus w).idx = e.idx := rfl
@[simp] theorem Engine.clearStatus_endIdx : (e.clearStatus w).endIdx = e.endIdx := rfl
@[simp] theorem Engine.clearStatus_lsrc : (e.clearStatus w).lsrc = e.lsrc := rfl
@[simp] theorem Engine.clearStatus_ltidx : (e.clearStatus w).ltidx = e.ltidx := rfl
@[simp] theorem Engine.clearStatus_ltval : (e.clearStatus w).ltval = e.ltval := rfl
@[simp] theorem Engine.startCalc_ready : (e.startCalc b c idx endIdx).ready = e.ready := rfl
@[simp] theorem Engine.startCalc_illegal : (e.startCalc b c idx endIdx).illegal = e.illegal := rfl
@[simp] theorem Engine.startCalc_overrun : (e.startCalc b c idx endIdx).overrun = e.overrun := rfl
@[simp] theorem Engine.startCalc_base : (e.startCalc b c idx endIdx).base = e.base := rfl
@[simp] theorem Engine.startCalc_result : (e.startCalc b c idx endIdx).result = e.result := rfl
@[simp] theorem Engine.startCalc_lut : (e.startCalc b c idx endIdx).lut = e.lut := rfl
@[simp] theorem Engine.startCalc_phase : (e.startCalc b c idx endIdx).phase = .calculate := rfl
@[simp] theorem Engine.startCalc_gidx : (e.startCalc b c idx endIdx).gidx = e.gidx := rfl
@[simp] theorem Engine.startCalc_abase : (e.startCalc b c idx endIdx).abase = addrBits b e.base := rfl
@[simp] theorem Engine.startCalc_c : (e.startCalc b c idx endIdx).c = c := rfl
@[simp] theorem Engine.startCalc_idx : (e.startCalc b c idx endIdx).idx = idx := rfl
@[simp] theorem Engine.startCalc_endIdx : (e.startCalc b c idx endIdx).endIdx = endIdx := rfl
@[simp] theorem Engine.startCalc_lsrc : (e.startCalc b c idx endIdx).lsrc = e.lsrc := rfl
@[simp] theorem Engine.startCalc_ltidx : (e.startCalc b c idx endIdx).ltidx = e.ltidx := rfl
@[simp] theorem Engine.startCalc_ltval : (e.startCalc b c idx endIdx).ltval = e.ltval := rfl
@[simp] theorem Engine.reset_ready : (Engine.reset b).ready = decide (b.strategy = .size) := rfl
@[simp] theorem Engine.reset_illegal : (Engine.reset b).illegal = false := rfl
@[simp] theorem Engine.reset_overrun : (Engine.reset b).overrun = false := rfl
@[simp] theorem Engine.reset_base : (Engine.reset b).base = 0#32 := rfl
@[simp] theorem Engine.reset_result : (Engine.reset b).result = 0#8 := rfl
@[simp] theorem Engine.reset_lut : (Engine.reset b).lut = [] := rfl
@[simp] theorem Engine.reset_phase : (Engine.reset b).phase = (match b.strategy with | .speed => .gen | .size => .idle) := rfl
@[simp] theorem Engine.reset_gidx : (Engine.reset b).gidx = 0#9 := rfl
@[simp] theorem Engine.reset_abase : (Engine.reset b).abase = 0#32 := rfl
@[simp] theorem Engine.reset_c : (Engine.reset b).c = 0#8 := rfl
@[simp] theorem Engine.reset_idx : (Engine.reset b).idx = 0#8 := rfl
@[simp] theorem Engine.reset_endIdx : (Engine.reset b).endIdx = 0#8 := rfl
@[simp] theorem Engine.reset_lsrc : (Engine.reset b).lsrc = 0#8 := rfl
@[simp] theorem Engine.reset_ltidx : (Engine.reset b).ltidx = 0#8 := rfl
@[simp] theorem Engine.reset_ltval : (Engine.reset b).ltval = 0#8 := rfl

end EngineUpdates

/-- What `E[j]` is after `E[k]` was replaced. -/
theorem State.setEngine_get (s : State) (k j : Nat) (e : Engine) :
    (s.setEngine k e).engines[j]? = if k = j ∧ k < s.engines.length then some e else s.engines[j]? := by
  by_cases h : k = j
  · subst h
    by_cases hk : k < s.engines.length
    · simp [hk]
    · simp [hk]
  · simp [h]

@[simp] theorem State.setEngine_get_self {s : State} {k : Nat} {x : Engine} (h : s.engines[k]? = some x) (e : Engine) :
    (s.setEngine k e).engines[k]? = some e := by
  have hk : k < s.engines.length := (List.getElem?_eq_some_iff.mp h).1
  simp [hk]

@[simp] theorem State.setEngine_get_other {s : State} {k j : Nat} (h : k ≠ j) (e : Engine) :
    (s.setEngine k e).engines[j]? = s.engines[j]? := by
  simp [h]

@[simp] theorem Engine.busy_eq_false {e : Engine} : e.busy = false ↔ e.phase = .idle := by
  simp [Engine.busy]

@[simp] theorem Engine.busy_eq_true {e : Engine} : e.busy = true ↔ e.phase ≠ .idle := by
  simp [Engine.busy]

end Sys2Proof.Machine
end

