-- ==== Sys2Proof/Laws/Ops.lean ====
section
/-! SUPPORT. What each shared operation can do, said once: addresses, XFORM, tables, the receipt of a command, reset. -/

namespace Sys2Proof.Machine

/-- The stored address bits are below `2^ADDR_W`. -/
theorem addrBits_lt (b : Build) (w : Word) : (addrBits b w).toNat < 2 ^ b.addrW := by
  have h : w.toNat % 2 ^ b.addrW < 2 ^ b.addrW := Nat.mod_lt _ (Nat.two_pow_pos _)
  have h' : w.toNat % 2 ^ b.addrW ≤ w.toNat := Nat.mod_le _ _
  have hw := w.isLt
  rw [addrBits, BitVec.toNat_ofNat, Nat.mod_eq_of_lt (by omega)]
  exact h

/-- A word whose bits above `ADDR_W` are 0 keeps its value. -/
theorem addrBits_eq_self {b : Build} {w : Word} (h : w.toNat < 2 ^ b.addrW) : addrBits b w = w := by
  simp [addrBits, Nat.mod_eq_of_lt h]

theorem elementAddr_lt (b : Build) (abase : Word) (i : Nat) : elementAddr b abase i < 2 ^ b.addrW :=
  Nat.mod_lt _ (Nat.two_pow_pos _)

/-- A `MemRead` answers exactly where it is admitted, with the byte memory holds. -/
theorem State.memRead_eq_some {s : State} {a : Nat} {b : Byte} :
    s.memRead a = some b ↔ s.admits a = true ∧ s.byteAt a = b := by
  simp [State.memRead]

theorem State.memRead_eq_none {s : State} {a : Nat} : s.memRead a = none ↔ s.admits a = false := by
  simp [State.memRead]

/-- XFORM under SPEED is one table read. -/
theorem xformBy_speed {b : Build} (h : b.strategy = .speed) (lut : Memory) (c x : Byte) :
    xformBy b lut c x = Memory.read lut (c ^^^ x).toNat := by
  simp [xformBy, h]

/-- XFORM under SIZE is the transform. -/
theorem xformBy_size {b : Build} (h : b.strategy = .size) (lut : Memory) (c x : Byte) :
    xformBy b lut c x = some (xform c x) := by
  simp [xformBy, h]

/-- Where every written entry is the generated one, XFORM answers only `xform` (40_poly_transform.md R103). -/
theorem xformBy_generated {b : Build} {lut : Memory} (hg : TableGenerated lut) {c x y : Byte}
    (h : xformBy b lut c x = some y) : y = xform c x := by
  unfold xformBy at h
  split at h
  · have := hg _ (Memory.read_mem h)
    simpa [xform] using this
  · simpa using h.symm

/-- XFORM of an engine that is READY answers (10_state.md R33). -/
theorem Engine.xformBy_isSome {b : Build} {e : Engine} (h : e.Inv b) (hr : e.ready = true) (c x : Byte) :
    (xformBy b e.lut c x).isSome = true := by
  unfold xformBy
  split
  · next hb => exact (h.2.2.2.2.2.2.1.1 hb hr).1 _ (c ^^^ x).isLt
  · rfl

/-- There is no unwritten entry exactly where the table is full. -/
theorem firstUnwritten_eq_none {lut : Memory} : firstUnwritten lut = none ↔ TableFull lut := by
  simp only [firstUnwritten, List.find?_eq_none, List.mem_range, Option.isNone_iff_eq_none, TableFull,
    Option.isSome_iff_ne_none]

/-- `s.command` in full (60_exceptions.md R167): no such instance, an overrun, an illegal command, or acceptance. -/
theorem State.command_cases {s : State} {i : Instr} {accept : Engine → Result} {r : Result}
    (h : s.command i accept = r) :
    (s.engines[s.port]? = none ∧ r = .fault (.noSuchInstance s.port)) ∨
    ∃ e, s.engines[s.port]? = some e ∧
      ((e.phase ≠ .idle ∧ r = .next (s.setEngine s.port e.setOverrun)) ∨
       (e.phase = .idle ∧ i.wf s.build = true ∧ r = accept e) ∨
       (e.phase = .idle ∧ i.wf s.build = false ∧ r = .next (s.setEngine s.port e.setIllegal))) := by
  unfold State.command at h
  split at h
  · next he => exact .inl ⟨he, h.symm⟩
  · next e he =>
    refine .inr ⟨e, he, ?_⟩
    split at h
    · next hb => exact .inl ⟨Engine.busy_eq_true.mp hb, h.symm⟩
    · next hb =>
      have hp : e.phase = .idle := by simpa using hb
      split at h
      · next hw => exact .inr (.inl ⟨hp, hw, h.symm⟩)
      · next hw => exact .inr (.inr ⟨hp, by simpa using hw, h.symm⟩)

/-- A legal command reaches an idle engine. -/
theorem State.command_accept {s : State} {e : Engine} (he : s.IdlePort e) {i : Instr} (hw : i.wf s.build = true)
    (accept : Engine → Result) : s.command i accept = accept e := by
  simp [State.command, he.1, Engine.busy, he.2, hw]

end Sys2Proof.Machine
end

