-- ==== Sys2Proof/Laws/Steps.lean ====
section
/-! SUPPORT. What a command, an engine's step, a host transaction and an event can do, said once each. -/

namespace Sys2Proof.Machine

/-- What a command that answers a next state can do: an engine `e'` is put in the place of the engine `e` behind the
port. -/
inductive CommandEffect (s : State) (e : Engine) : Engine → Prop
  | overrun : e.phase ≠ .idle → CommandEffect s e e.setOverrun
  | illegal : e.phase = .idle → CommandEffect s e e.setIllegal
  | calculate {start len c : Byte} : e.phase = .idle → xformBy s.build e.lut 0x00#8 start = some c →
      CommandEffect s e (e.startCalc s.build c 0x00#8 len)
  | calculateOfs {ofs len : Byte} : e.phase = .idle → ofs.toNat < len.toNat →
      CommandEffect s e (e.startCalc s.build 0x00#8 ofs len)
  | copy {src : Byte} {source : Engine} : e.phase = .idle → src.toNat < s.build.nInst →
      s.engines[src.toNat]? = some source → source.ready = true →
      CommandEffect s e { e with lsrc := src, phase := .copy }
  | testWr {tidx tval : Byte} : e.phase = .idle → s.build.testHook = true → s.build.strategy = .speed →
      CommandEffect s e { e with ltidx := tidx, ltval := tval, phase := .twr }

/-- A command that answers a next state replaces the engine behind the port, and nothing else. -/
theorem exec_cases {i : Instr} {s t : State} (h : exec i s = .next t) :
    ∃ e e', s.engines[s.port]? = some e ∧ CommandEffect s e e' ∧ t = s.setEngine s.port e' := by
  cases i with
  | calculate start len =>
    rcases State.command_cases (show s.command _ _ = .next t from h) with
      ⟨_, hr⟩ | ⟨e, he, ⟨hp, hr⟩ | ⟨hp, -, hr⟩ | ⟨hp, -, hr⟩⟩
    · cases hr
    · cases hr; exact ⟨e, _, he, .overrun hp, rfl⟩
    · split at hr
      · cases hr
      · next c hc => cases hr; exact ⟨e, _, he, .calculate hp hc, rfl⟩
    · cases hr; exact ⟨e, _, he, .illegal hp, rfl⟩
  | calculateOfs ofs start len =>
    rcases State.command_cases (show s.command _ _ = .next t from h) with
      ⟨_, hr⟩ | ⟨e, he, ⟨hp, hr⟩ | ⟨hp, -, hr⟩ | ⟨hp, -, hr⟩⟩
    · cases hr
    · cases hr; exact ⟨e, _, he, .overrun hp, rfl⟩
    · split at hr
      · cases hr
      · next hc => cases hr; exact ⟨e, _, he, .calculateOfs hp (Nat.lt_of_not_le hc), rfl⟩
    · cases hr; exact ⟨e, _, he, .illegal hp, rfl⟩
  | copy src =>
    rcases State.command_cases (show s.command _ _ = .next t from h) with
      ⟨_, hr⟩ | ⟨e, he, ⟨hp, hr⟩ | ⟨hp, hw, hr⟩ | ⟨hp, -, hr⟩⟩
    · cases hr
    · cases hr; exact ⟨e, _, he, .overrun hp, rfl⟩
    · split at hr
      · cases hr
      · next source hs =>
        split at hr
        · next hready => cases hr; exact ⟨e, _, he, .copy hp (by simpa [Instr.wf] using hw) hs hready, rfl⟩
        · cases hr; exact ⟨e, _, he, .illegal hp, rfl⟩
    · cases hr; exact ⟨e, _, he, .illegal hp, rfl⟩
  | testWr tidx tval =>
    rcases State.command_cases (show s.command _ _ = .next t from h) with
      ⟨_, hr⟩ | ⟨e, he, ⟨hp, hr⟩ | ⟨hp, hw, hr⟩ | ⟨hp, -, hr⟩⟩
    · cases hr
    · cases hr; exact ⟨e, _, he, .overrun hp, rfl⟩
    · have hw' : s.build.testHook = true ∧ s.build.strategy = .speed := by simpa [Instr.wf] using hw
      cases hr; exact ⟨e, _, he, .testWr hp hw'.1 hw'.2, rfl⟩
    · cases hr; exact ⟨e, _, he, .illegal hp, rfl⟩

/-- The step of an engine that has one enabled is that step. -/
theorem engineStep_of_enabled {s : State} {k : Nat} {e : Engine} {st : EngineStep} (he : s.engines[k]? = some e)
    (h : s.enabledStep e = some st) : engineStep k s = st.run k e s := by
  simp [engineStep, he, h]

theorem State.enabledStep_gen {s : State} {e : Engine} (hp : e.phase = .gen) : s.enabledStep e = some .gen := by
  simp [State.enabledStep, hp]

theorem State.enabledStep_byte {s : State} {e : Engine} (hp : e.phase = .calculate)
    (hlt : e.idx.toNat < e.endIdx.toNat) (ha : s.admits (e.nextAddr s.build) = true) :
    s.enabledStep e = some (.byte (s.byteAt (e.nextAddr s.build))) := by
  simp [State.enabledStep, hp, hlt, State.memRead, ha]

theorem State.enabledStep_complete {s : State} {e : Engine} (hp : e.phase = .calculate) (heq : e.idx = e.endIdx) :
    s.enabledStep e = some .complete := by
  simp [State.enabledStep, hp, heq]

/-- What a step of `E[k]` can turn its engine `e` into. -/
inductive EngineEffect (s : State) (k : Nat) (e : Engine) : Engine → Prop
  | gen : e.phase = .gen → EngineEffect s k e e.generate
  | byte {b c : Byte} : e.phase = .calculate → e.idx.toNat < e.endIdx.toNat →
      s.memRead (e.nextAddr s.build) = some b → xformBy s.build e.lut e.c b = some c →
      EngineEffect s k e { e with c := c, idx := e.idx + 1#8 }
  | complete : e.phase = .calculate → e.idx = e.endIdx →
      EngineEffect s k e { e with result := e.c, phase := .idle }
  | copyNone : e.phase = .copy → ¬ (s.build.strategy = .speed ∧ e.lsrc.toNat ≠ k) →
      EngineEffect s k e { e with phase := .idle }
  | copy {source : Engine} : e.phase = .copy → s.build.strategy = .speed → e.lsrc.toNat ≠ k →
      s.engines[e.lsrc.toNat]? = some source → TableFull source.lut →
      EngineEffect s k e { e with lut := source.lut, phase := .idle }
  | twr : e.phase = .twr →
      EngineEffect s k e { e with lut := Memory.write e.lut e.ltidx.toNat e.ltval, phase := .idle }

/-- A step of `E[k]` that answers a next state replaces that engine, or changes nothing where no step is enabled. -/
theorem engineStep_cases {k : Nat} {s t : State} (h : engineStep k s = .next t) :
    t = s ∨ ∃ e e', s.engines[k]? = some e ∧ EngineEffect s k e e' ∧ t = s.setEngine k e' := by
  unfold engineStep at h
  split at h
  · cases h; exact .inl rfl
  · next e he =>
    split at h
    · cases h; exact .inl rfl
    · next st hst =>
      refine .inr ⟨e, ?_⟩
      unfold State.enabledStep at hst
      split at hst
      · next hp => cases hst; cases h; exact ⟨_, he, .gen hp, rfl⟩
      · cases hst
      · next hp =>
        split at hst
        · next hlt =>
          obtain ⟨b, hb, rfl⟩ := Option.map_eq_some_iff.mp hst
          simp only [EngineStep.run, byteStep] at h
          split at h
          · cases h
          · next c hc => cases h; exact ⟨_, he, .byte hp hlt hb hc, rfl⟩
        · split at hst
          · next heq => cases hst; cases h; exact ⟨_, he, .complete hp heq, rfl⟩
          · cases hst
      · next hp =>
        cases hst
        simp only [EngineStep.run, copyStep] at h
        split at h
        · next hc =>
          split at h
          · cases h
          · next source hs =>
            split at h
            · cases h
            · next hf =>
              cases h
              exact ⟨_, he, .copy hp hc.1 hc.2 hs (firstUnwritten_eq_none.mp hf), rfl⟩
        · next hc => cases h; exact ⟨_, he, .copyNone hp hc, rfl⟩
      · next hp => cases hst; cases h; exact ⟨_, he, .twr hp, rfl⟩

/-- What a host transaction other than a CMD write can do to the engines, data memory and the host's own fields. -/
theorem hostOp_cases {op : HostOp} {s t : State} (h : hostOp op s = .next t) :
    (∃ r, t = { s with reads := r }) ∨
    (∃ a b, op = .dataWrite a b ∧ a.toNat < 2 ^ s.build.addrW ∧ t = { s with mem := Memory.write s.mem a.toNat b }) ∨
    (∃ k r m v, op = .poll k r m v ∧ t = { s with host := op :: s.host }) ∨
    (∃ k r w e, op = .regWrite k r w ∧ s.engines[k]? = some e ∧ r ≠ 0#3 ∧
      t = s.setEngine k (e.writeReg s.build r w)) ∨
    (∃ k w e, op = .regWrite k 0#3 w ∧ s.engines[k]? = some e ∧ cmdWrite k e w s = .next t) := by
  cases op with
  | regRead k r =>
    simp only [hostOp] at h
    split at h
    · cases h
    · cases h; exact .inl ⟨_, rfl⟩
  | regWrite k r w =>
    simp only [hostOp] at h
    split at h
    · cases h
    · next e he =>
      split at h
      · next hr => subst hr; exact .inr (.inr (.inr (.inr ⟨k, w, e, rfl, he, h⟩)))
      · next hr => cases h; exact .inr (.inr (.inr (.inl ⟨k, r, w, e, rfl, he, hr, rfl⟩)))
  | dataWrite a b =>
    simp only [hostOp] at h
    split at h
    · next ha => cases h; exact .inr (.inl ⟨a, b, rfl, by simpa [State.hasAddress] using ha, rfl⟩)
    · cases h
  | dataRead a =>
    simp only [hostOp] at h
    split at h
    · cases h; exact .inl ⟨_, rfl⟩
    · cases h
  | poll k r m v =>
    simp only [hostOp] at h
    split at h
    · cases h
    · split at h
      · cases h; exact .inl ⟨s.reads, rfl⟩
      · cases h; exact .inr (.inr (.inl ⟨k, r, m, v, rfl, rfl⟩))

/-- A CMD write that answers a next state replaces the engine it names, and makes it the port. -/
theorem cmdWrite_cases {k : Nat} {e : Engine} {w : Word} {s t : State} (he : s.engines[k]? = some e)
    (h : cmdWrite k e w s = .next t) :
    ∃ e', CommandEffect { s with port := k } e e' ∧ t = ({ s with port := k } : State).setEngine k e' := by
  simp only [cmdWrite] at h
  split at h
  · next hb => cases h; exact ⟨_, .overrun (Engine.busy_eq_true.mp hb), rfl⟩
  · next hb =>
    have hp : e.phase = .idle := by simpa using hb
    split at h
    · cases h; exact ⟨_, .illegal hp, rfl⟩
    · obtain ⟨x, e', hx, hc, rfl⟩ := exec_cases h
      have : x = e := by simpa [he] using hx.symm
      subst this
      exact ⟨e', hc, rfl⟩

/-- A step with a move is that event, run on the state with the move used up. -/
theorem step_of_nextMove {s : State} {ev : Event} (h : s.nextMove = some ev) : step s = runEvent ev s.useMove := by
  simp [step, nextEvent, h]

/-- A step without a move that answers a next state answers the same state. -/
theorem step_of_no_nextMove {s t : State} (h : s.nextMove = none) (ht : step s = .next t) : t = s := by
  simp only [step, nextEvent, h] at ht
  split at ht
  · cases ht
  · cases ht; rfl

/-- Using up a move changes the schedule or the counter, and nothing else. -/
theorem State.useMove_eq (s : State) : ∃ sched n, s.useMove = { s with schedule := sched, choices := n } := by
  unfold State.useMove
  split
  · exact ⟨_, s.choices, rfl⟩
  · exact ⟨s.schedule, _, rfl⟩

/-- A step is one event at the state with its move used up, or the machine has ended. -/
theorem step_cases {s t : State} (h : step s = .next t) :
    t = s ∨ ∃ ev sched n, runEvent ev { s with schedule := sched, choices := n } = .next t := by
  cases hm : s.nextMove with
  | none => exact .inl (step_of_no_nextMove hm h)
  | some ev =>
    obtain ⟨sched, n, hu⟩ := s.useMove_eq
    exact .inr ⟨ev, sched, n, by rw [← hu, ← step_of_nextMove hm]; exact h⟩

end Sys2Proof.Machine
end

