-- ==== Sys2Proof/Laws/Inv.lean ====
section
/-! SUPPORT. How the invariant is used and kept by one replacement of an engine, and the laws of buffers and folds. -/

namespace Sys2Proof.Machine

/-- Every engine of a machine that meets the invariant meets the engines' invariant. -/
theorem State.engine_inv {s : State} (h : s.Inv) {k : Nat} {e : Engine} (he : s.engines[k]? = some e) :
    e.Inv s.build :=
  h.2.2.2.2.2.1 e (List.mem_of_getElem? he)

/-- Outside GEN an engine is READY. -/
theorem Engine.ready_of_not_gen {b : Build} {e : Engine} (h : e.Inv b) (hp : e.phase ≠ .gen) : e.ready = true := by
  cases hr : e.ready
  · exact absurd (h.2.2.2.2.1.mp hr) hp
  · rfl

/-- The reset values meet the engines' invariant. -/
theorem Engine.reset_inv (b : Build) : (Engine.reset b).Inv b := by
  have hp : 0 < 2 ^ b.addrW := Nat.two_pow_pos _
  cases h : b.strategy <;>
    simp [Engine.Inv, h, Memory.wf, Memory.above, Engine.GenOk, Engine.StrategyOk, Memory.read, hp]

/-- The memory of `State.reset` is in canonical form. -/
theorem State.reset_mem_wf : Memory.wf State.reset.mem = true := rfl

/-- Replacing an engine keeps the machine's invariant, if the new one meets the engines' invariant, stays READY where
the old one was, and has a READY source where it is in COPY. -/
theorem State.setEngine_inv {s : State} (h : s.Inv) {k : Nat} {e e' : Engine} (he : s.engines[k]? = some e)
    (hi : e'.Inv s.build) (hr : e.ready = true → e'.ready = true) (hc : s.CopySourceReady e') :
    (s.setEngine k e').Inv := by
  have key : ∀ x : Engine, s.CopySourceReady x → (s.setEngine k e').CopySourceReady x := by
    intro x hx hp
    obtain ⟨y, hy, hyr⟩ := Option.map_eq_some_iff.mp (hx hp)
    by_cases hj : k = x.lsrc.toNat
    · rw [← hj, he] at hy
      cases hy
      rw [← hj, State.setEngine_get_self he]
      simp [hr hyr]
    · rw [State.setEngine_get_other hj]
      exact hx hp
  have from_set : ∀ x ∈ (s.setEngine k e').engines, x ∈ s.engines ∨ x = e' := fun x hx =>
    List.mem_or_eq_of_mem_set hx
  refine ⟨h.1, by simpa using h.2.1, h.2.2.1, h.2.2.2.1, h.2.2.2.2.1, fun x hx => ?_, fun x hx => key x ?_⟩
  · rcases from_set x hx with hx | rfl
    · exact h.2.2.2.2.2.1 x hx
    · exact hi
  · rcases from_set x hx with hx | rfl
    · exact h.2.2.2.2.2.2 x hx
    · exact hc

@[simp] theorem State.setEngine_setEngine (s : State) (k : Nat) (e e' : Engine) :
    (s.setEngine k e).setEngine k e' = s.setEngine k e' := by
  simp [State.setEngine]

@[simp] theorem State.byteAt_setEngine (s : State) (k a : Nat) (e : Engine) :
    (s.setEngine k e).byteAt a = s.byteAt a := rfl

/-- A buffer is its first byte and the rest. -/
theorem State.buffer_succ (s : State) (a : Word) (lo n : Nat) :
    s.buffer a lo (n + 1) = s.byteAt (elementAddr s.build a lo) :: s.buffer a (lo + 1) n := by
  simp only [State.buffer, List.range_succ_eq_map, List.map_cons, List.map_map, Function.comp_def, Nat.add_zero]
  congr 1
  exact List.map_congr_left fun j _ => by rw [Nat.succ_eq_add_one, Nat.add_comm j 1, Nat.add_assoc]

@[simp] theorem foldBy_nil (b : Build) (lut : Memory) (c : Byte) : foldBy b lut c [] = some c := rfl

/-- A fold is the first XFORM and then the fold of the rest. -/
theorem foldBy_cons (b : Build) (lut : Memory) (c x : Byte) (xs : List Byte) :
    foldBy b lut c (x :: xs) = (xformBy b lut c x).bind fun c => foldBy b lut c xs := by
  simp only [foldBy, List.foldl_cons, Option.bind_some]
  cases xformBy b lut c x with
  | none => induction xs with
    | nil => rfl
    | cons y ys ih => simpa using ih
  | some v => rfl

/-- One step of a run of one engine. -/
theorem runEngine_succ {k : Nat} {s t : State} (h : engineStep k s = .next t) (n : Nat) :
    runEngine k (n + 1) s = runEngine k n t := by
  simp [runEngine, h]

/-- One event of a run. -/
theorem runEvents_cons {ev : Event} {s t : State} (h : runEvent ev s = .next t) (evs : List Event) :
    runEvents (ev :: evs) s = runEvents evs t := by
  simp [runEvents, h]

end Sys2Proof.Machine
end

