-- ==== Sys2Proof/Machine/Fairness.lean ====
section
/-! DEFINITION. Runs, and the weak fairness that the spec lets a claim about a run assume (70_reset_and_hazards.md R190).
The step has no time and no fairness of its own: an instance may wait for any number of steps. -/

namespace Sys2Proof.Machine

/-- An unending run: each state is a step of the one before it. A run that has ended stays where it is. -/
def IsRun (r : Nat → State) : Prop := ∀ n, step (r n) = .next (r (n + 1))

/-- Weak fairness (70_reset_and_hazards.md R190): an instance step that stays enabled is eventually taken. -/
def WeaklyFair (r : Nat → State) : Prop :=
  ∀ k n, (∀ m ≥ n, (r m).canStep k = true) → ∃ m ≥ n, (r m).nextMove = some (.engine k)

end Sys2Proof.Machine
end

