-- ==== Sys2Proof/Laws/Fairness.lean ====
section
/-! SUPPORT. What the other agents leave of a busy engine, and the consequences of weak fairness that
70_reset_and_hazards.md R190 names: generation ends, and a calculate whose reads are all admitted ends. -/

namespace Sys2Proof.Machine

/-- Only host accesses change BASE and the sticky bits; this is the rest of an engine. -/
abbrev Engine.SameButPort (e e' : Engine) : Prop :=
  { e' with base := e.base, illegal := e.illegal, overrun := e.overrun } = e

theorem Engine.sameButPort_refl (e : Engine) : e.SameButPort e := rfl

/-- A write to a register other than CMD reaches BASE and the sticky bits only. -/
theorem Engine.writeReg_sameButPort (b : Build) (e : Engine) (r : BitVec 3) (w : Word) :
    e.SameButPort (e.writeReg b r w) := by
  unfold Engine.writeReg
  split <;> rfl

/-- Every state that differs from `s` by one replaced engine shows the same or the replaced one. -/
theorem State.setEngine_sameButPort {s : State} {j k : Nat} {e x x' : Engine} (he : s.engines[k]? = some e)
    (hx : s.engines[j]? = some x) (h : j = k → e.SameButPort x') :
    ∃ e', (s.setEngine j x').engines[k]? = some e' ∧ e.SameButPort e' := by
  by_cases hj : j = k
  · subst hj
    exact ⟨x', State.setEngine_get_self hx x', h rfl⟩
  · exact ⟨e, by rw [State.setEngine_get_other hj]; exact he, e.sameButPort_refl⟩

/-- A host step leaves a busy engine as it is, but for BASE and the sticky bits. -/
theorem hostStep_busy {s t : State} {k : Nat} {e : Engine} (h : hostStep s = .next t) (he : s.engines[k]? = some e)
    (hp : e.phase ≠ .idle) : ∃ e', t.engines[k]? = some e' ∧ e.SameButPort e' := by
  unfold hostStep at h
  split at h
  · cases h; exact ⟨e, he, e.sameButPort_refl⟩
  · rcases hostOp_cases h with ⟨r, rfl⟩ | ⟨a, b, -, -, rfl⟩ | ⟨j, r, m, v, -, rfl⟩ | ⟨j, r, w, x, -, hx, -, rfl⟩ |
      ⟨j, w, x, -, hx, hc⟩
    · exact ⟨e, he, e.sameButPort_refl⟩
    · exact ⟨e, he, e.sameButPort_refl⟩
    · exact ⟨e, he, e.sameButPort_refl⟩
    · refine State.setEngine_sameButPort he hx fun hj => ?_
      subst hj
      cases he.symm.trans hx
      exact e.writeReg_sameButPort _ r w
    · obtain ⟨x', hx', rfl⟩ := cmdWrite_cases hx hc
      refine State.setEngine_sameButPort (s := { s with host := _, port := j }) he hx fun hj => ?_
      subst hj
      cases he.symm.trans hx
      cases hx' with
      | overrun => rfl
      | illegal hi => exact absurd hi hp
      | calculate hi => exact absurd hi hp
      | calculateOfs hi => exact absurd hi hp
      | copy hi => exact absurd hi hp
      | testWr hi => exact absurd hi hp

/-- An event that is neither the engine's own step nor a reset leaves a busy engine as it is, but for BASE and the sticky
bits. -/
theorem runEvent_busy {s t : State} {ev : Event} {k : Nat} {e : Engine} (h : runEvent ev s = .next t)
    (he : s.engines[k]? = some e) (hp : e.phase ≠ .idle) (hk : ev ≠ .engine k) (hr : ev ≠ .reset) :
    ∃ e', t.engines[k]? = some e' ∧ e.SameButPort e' := by
  cases ev with
  | host => exact hostStep_busy h he hp
  | reset => exact absurd rfl hr
  | engine j =>
    have hj : j ≠ k := fun hj => hk (hj ▸ rfl)
    rcases engineStep_cases h with rfl | ⟨x, x', hx, -, rfl⟩
    · exact ⟨e, he, e.sameButPort_refl⟩
    · exact State.setEngine_sameButPort he hx fun hjk => absurd hjk hj

/-- No event changes the build or the launch memory. -/
theorem runEvent_keeps {s t : State} {ev : Event} (h : runEvent ev s = .next t) :
    t.build = s.build ∧ t.launch = s.launch := by
  cases ev with
  | host =>
    simp only [runEvent, hostStep] at h
    split at h
    · cases h; exact ⟨rfl, rfl⟩
    · rcases hostOp_cases h with ⟨r, rfl⟩ | ⟨a, b, -, -, rfl⟩ | ⟨j, r, m, v, -, rfl⟩ | ⟨j, r, w, x, -, hx, -, rfl⟩ |
        ⟨j, w, x, -, hx, hc⟩
      iterate 4 exact ⟨rfl, rfl⟩
      obtain ⟨x', -, rfl⟩ := cmdWrite_cases hx hc
      exact ⟨rfl, rfl⟩
  | reset => cases h; exact ⟨rfl, rfl⟩
  | engine j =>
    rcases engineStep_cases h with rfl | ⟨x, x', -, -, rfl⟩ <;> exact ⟨rfl, rfl⟩

/-- `E[k]` moves at the step `n` of a run. -/
abbrev MovesAt (r : Nat → State) (k n : Nat) : Prop := (r n).nextMove = some (.engine k)

/-- No reset happens in a run from its step `n` on. -/
abbrev NoResetFrom (r : Nat → State) (n : Nat) : Prop := ∀ m ≥ n, (r m).nextMove ≠ some .reset

/-- A step of a run at which `E[k]` moves is a step of that engine. -/
theorem IsRun.engineStep {r : Nat → State} (hr : IsRun r) {k n : Nat} (h : MovesAt r k n) :
    Sys2Proof.Machine.engineStep k (r n).useMove = .next (r (n + 1)) :=
  (step_of_nextMove h).symm.trans (hr n)

/-- A step of a run at which a busy engine does not move leaves it, but for BASE and the sticky bits, and the machine's
build and launch memory. -/
theorem IsRun.busy_waits {r : Nat → State} (hr : IsRun r) {k n : Nat} {e : Engine} (he : (r n).engines[k]? = some e)
    (hp : e.phase ≠ .idle) (hk : ¬ MovesAt r k n) (hn : (r n).nextMove ≠ some .reset) :
    (∃ e', (r (n + 1)).engines[k]? = some e' ∧ e.SameButPort e') ∧
    (r (n + 1)).build = (r n).build ∧ (r (n + 1)).launch = (r n).launch := by
  cases hm : (r n).nextMove with
  | none =>
    rw [step_of_no_nextMove hm (hr n)]
    exact ⟨⟨e, he, e.sameButPort_refl⟩, rfl, rfl⟩
  | some ev =>
    have h : runEvent ev (r n).useMove = .next (r (n + 1)) := (step_of_nextMove hm).symm.trans (hr n)
    refine ⟨runEvent_busy h (by simpa using he) hp (fun hj => hk (hm.trans (congrArg some hj)))
      (fun hj => hn (hm.trans (congrArg some hj))), ?_⟩
    simpa using runEvent_keeps h

/-- What weak fairness gives: where a condition keeps `E[k]` enabled until it moves, and each of its moves reaches the goal
or brings the condition nearer to it, the goal is reached. -/
theorem WeaklyFair.reaches {r : Nat → State} (hf : WeaklyFair r) {k n₀ : Nat} {near : Nat → State → Prop}
    {goal : State → Prop} (henabled : ∀ d s, near d s → s.canStep k = true)
    (hwaits : ∀ n ≥ n₀, ∀ d, near d (r n) → ¬ MovesAt r k n → near d (r (n + 1)))
    (hmoves : ∀ n ≥ n₀, ∀ d, near d (r n) → MovesAt r k n → goal (r (n + 1)) ∨ ∃ d' < d, near d' (r (n + 1))) :
    ∀ d, ∀ n ≥ n₀, near d (r n) → ∃ m ≥ n, goal (r m) := by
  intro d
  induction d using Nat.strong_induction_on with
  | _ d ih =>
    intro n hn h
    have hmove : ∃ m ≥ n, near d (r m) ∧ MovesAt r k m := by
      by_contra hno
      have hstays : ∀ m ≥ n, near d (r m) := fun m hm => by
        induction m, hm using Nat.le_induction with
        | base => exact h
        | succ m hm ihm => exact hwaits m (by omega) d ihm fun hk => hno ⟨m, hm, ihm, hk⟩
      obtain ⟨m, hm, hk⟩ := hf k n fun m hm => henabled d _ (hstays m hm)
      exact hno ⟨m, hm, hstays m hm, hk⟩
    obtain ⟨m, hm, hd, hk⟩ := hmove
    rcases hmoves m (by omega) d hd hk with hg | ⟨d', hlt, hd'⟩
    · exact ⟨m + 1, by omega, hg⟩
    · obtain ⟨l, hl, hg⟩ := ih d' hlt (m + 1) (by omega) hd'
      exact ⟨l, by omega, hg⟩

/-- 70_reset_and_hazards.md R190: under weak fairness generation ends, where no reset starts it again. -/
theorem WeaklyFair.generation_ends {r : Nat → State} (hr : IsRun r) (hf : WeaklyFair r) {k n : Nat} {e : Engine}
    (hn : NoResetFrom r n) (he : (r n).engines[k]? = some e) (hp : e.phase = .gen) (hg : e.gidx.toNat < 256) :
    ∃ m ≥ n, ∃ e', (r m).engines[k]? = some e' ∧ e'.phase = .idle ∧ e'.ready = true := by
  refine hf.reaches (n₀ := n) (k := k)
    (near := fun d s => ∃ e, s.engines[k]? = some e ∧ e.phase = .gen ∧ e.gidx.toNat < 256 ∧ e.gidx.toNat + d = 256)
    (goal := fun s => ∃ e', s.engines[k]? = some e' ∧ e'.phase = .idle ∧ e'.ready = true) ?_ ?_ ?_ (256 - e.gidx.toNat) n le_rfl ⟨e, he, hp, hg, by omega⟩
  · rintro d s ⟨e, he, hp, -⟩
    simp [State.canStep, he, State.enabledStep, hp]
  · rintro m hm d ⟨e, he, hp, hg, hd⟩ hk
    obtain ⟨⟨e', he', hs⟩, -⟩ := hr.busy_waits he (by simp [hp]) hk (hn m hm)
    rw [← hs] at hp hg hd
    exact ⟨e', he', hp, hg, hd⟩
  · rintro m - d ⟨e, he, hp, hg, hd⟩ hk
    have he' : (r m).useMove.engines[k]? = some e := by simpa using he
    have h := (engineStep_of_enabled he' (State.enabledStep_gen hp)).symm.trans (hr.engineStep hk)
    have hget : (r (m + 1)).engines[k]? = some e.generate := by
      rw [← Host.Outcome.next.inj h]
      exact State.setEngine_get_self he' _
    have hsucc : (e.gidx + 1#9).toNat = e.gidx.toNat + 1 := by
      rw [BitVec.toNat_add]
      exact Nat.mod_eq_of_lt (by simp; omega)
    by_cases hlast : e.gidx + 1#9 = 256#9
    · exact .inl ⟨_, hget, by simp [Engine.generate, hlast], by simp [Engine.generate, hlast]⟩
    · have hne : (e.gidx + 1#9).toNat ≠ 256 := fun h => hlast (BitVec.eq_of_toNat_eq (by simpa using h))
      refine .inr ⟨d - 1, by omega, _, hget, ?_⟩
      simp only [Engine.generate, hlast, if_false]
      exact ⟨hp, by omega, by omega⟩

/-- 70_reset_and_hazards.md R190: under weak fairness a calculate whose reads are all admitted ends, where no reset abandons
it. -/
theorem WeaklyFair.calculate_ends {r : Nat → State} (hr : IsRun r) (hf : WeaklyFair r) {k n : Nat} {e : Engine}
    (hn : NoResetFrom r n) (he : (r n).engines[k]? = some e) (hp : e.phase = .calculate)
    (hi : e.idx.toNat ≤ e.endIdx.toNat)
    (ha : ∀ i, e.idx.toNat ≤ i → i < e.endIdx.toNat → (r n).admits (elementAddr (r n).build e.abase i) = true) :
    ∃ m ≥ n, ∃ e', (r m).engines[k]? = some e' ∧ e'.phase = .idle := by
  refine hf.reaches (n₀ := n) (k := k)
    (near := fun d s => ∃ e, s.engines[k]? = some e ∧ e.phase = .calculate ∧ e.idx.toNat + d = e.endIdx.toNat ∧
      ∀ i, e.idx.toNat ≤ i → i < e.endIdx.toNat → s.admits (elementAddr s.build e.abase i) = true)
    (goal := fun s => ∃ e', s.engines[k]? = some e' ∧ e'.phase = .idle) ?_ ?_ ?_ (e.endIdx.toNat - e.idx.toNat) n le_rfl ⟨e, he, hp, by omega, ha⟩
  · rintro d s ⟨e, he, hp, hd, ha⟩
    by_cases hlt : e.idx.toNat < e.endIdx.toNat
    · simp [State.canStep, he, State.enabledStep, hp, hlt, State.memRead, Engine.nextAddr, ha _ le_rfl hlt]
    · have : e.idx = e.endIdx := BitVec.eq_of_toNat_eq (by omega)
      simp [State.canStep, he, State.enabledStep, hp, this]
  · rintro m hm d ⟨e, he, hp, hd, ha⟩ hk
    obtain ⟨⟨e', he', hs⟩, hb, hl⟩ := hr.busy_waits he (by simp [hp]) hk (hn m hm)
    rw [← hs] at hp hd ha
    refine ⟨e', he', hp, hd, fun i h₁ h₂ => ?_⟩
    simpa [State.admits, hb, hl] using ha i h₁ h₂
  · rintro m - d ⟨e, he, hp, hd, ha⟩ hk
    have he' : (r m).useMove.engines[k]? = some e := by simpa using he
    by_cases hlt : e.idx.toNat < e.endIdx.toNat
    · have hadm : (r m).useMove.admits (e.nextAddr (r m).useMove.build) = true := by
        simpa [State.admits, Engine.nextAddr] using ha _ le_rfl hlt
      have h := (engineStep_of_enabled he' (State.enabledStep_byte hp hlt hadm)).symm.trans (hr.engineStep hk)
      simp only [EngineStep.run, byteStep] at h
      split at h
      · cases h
      · have hsucc : (e.idx + 1#8).toNat = e.idx.toNat + 1 := by
          have := e.endIdx.isLt
          rw [BitVec.toNat_add]
          exact Nat.mod_eq_of_lt (by simp; omega)
        rw [← Host.Outcome.next.inj h]
        refine .inr ⟨d - 1, by omega, _, State.setEngine_get_self he' _, hp, by simp only; omega, fun i h₁ h₂ => ?_⟩
        simpa [State.admits] using ha i (by simp only at h₁; omega) h₂
    · have heq : e.idx = e.endIdx := BitVec.eq_of_toNat_eq (by omega)
      have h := (engineStep_of_enabled he' (State.enabledStep_complete hp heq)).symm.trans (hr.engineStep hk)
      rw [← Host.Outcome.next.inj h]
      exact .inl ⟨_, State.setEngine_get_self he' _, rfl⟩

end Sys2Proof.Machine
end

