-- ==== Sys2Proof/Laws/PerInstr.lean ====
section
/-! SUPPORT. The family EncodeFixed: the word of a command matches its row of the opcode table (30_encoding.md R86). -/

namespace Sys2Proof.Laws.EncodeFixed

/-- The mask of a command's row (30_encoding.md R86). -/
def mask : Instr → Word
  | .calculate _ _ => 0x00FF00FF#32
  | .calculateOfs _ _ _ => 0x000000FF#32
  | .copy _ => 0xFFFF00FF#32
  | .testWr _ _ => 0xFF0000FF#32

/-- The match value of a command's row (30_encoding.md R86). -/
def pattern : Instr → Word
  | .calculate _ _ => 0x00000001#32
  | .calculateOfs _ _ _ => 0x00000002#32
  | .copy _ => 0x00000003#32
  | .testWr _ _ => 0x00000004#32

/-- The encoded word selects the command's own row. -/
def Statement (i : Instr) : Prop := encode i &&& mask i = pattern i

theorem calculate (start len : Byte) : Statement (.calculate start len) := by
  simp only [Statement, encode, mask, pattern]
  ext j hj
  interval_cases j <;> simp

theorem calculateOfs (ofs start len : Byte) : Statement (.calculateOfs ofs start len) := by
  simp only [Statement, encode, mask, pattern]
  ext j hj
  interval_cases j <;> simp

theorem copy (src : Byte) : Statement (.copy src) := by
  simp only [Statement, encode, mask, pattern]
  ext j hj
  interval_cases j <;> simp

theorem testWr (tidx tval : Byte) : Statement (.testWr tidx tval) := by
  simp only [Statement, encode, mask, pattern]
  ext j hj
  interval_cases j <;> simp

end Sys2Proof.Laws.EncodeFixed
end

