-- ==== Sys2Proof/Tests/Slice0.lean ====
section
/-! SUPPORT. Tests of single steps with expected values from spec/95_test_vectors.md, and the smoke test of WellFormed. -/

namespace Sys2Proof.Tests

open Sys2Proof Sys2Proof.Machine

/-- SPEED with the hook, two instances, 16 address bits (95_test_vectors.md, programs P1 and P4). -/
def speedBuild : Build := ⟨.speed, true, 2, 16⟩

/-- SIZE, two instances, 8 address bits. -/
def sizeBuild : Build := ⟨.size, true, 2, 8⟩

/-- An idle engine with its generated table and BASE = 0x0100. -/
def idleEngine : Engine := { (Engine.reset speedBuild).constructed with base := 0x0100#32 }

/-- An engine in the middle of a calculate over the buffer at 0x0100. -/
def runningEngine (c idx endIdx : Byte) : Engine :=
  { idleEngine with phase := .calculate, abase := 0x0100#32, c := c, idx := idx, endIdx := endIdx }

/-- Two idle engines and "123456789" at 0x0100. -/
def demo : State :=
  { State.resetOf speedBuild with
    engines := [idleEngine, idleEngine]
    mem := [(0x100, 0x31#8), (0x101, 0x32#8), (0x102, 0x33#8), (0x103, 0x34#8), (0x104, 0x35#8), (0x105, 0x36#8),
      (0x106, 0x37#8), (0x107, 0x38#8), (0x108, 0x39#8)] }

/-- Two engines of a SIZE build, the first one's BASE near the top of memory (95_test_vectors.md 3.2, address wrap). -/
def sizeDemo : State :=
  { State.resetOf sizeBuild with
    engines := [{ Engine.reset sizeBuild with base := 0xFE#32 }, Engine.reset sizeBuild]
    mem := [(0x00, 0x33#8), (0x01, 0x34#8), (0xFE, 0x31#8), (0xFF, 0x32#8)] }

/-- `demo` with one of its engines in the place of `E[k]`. -/
def demoWith (k : Nat) (e : Engine) : State := demo.setEngine k e

/-- `demo` with the host about to do `op`. -/
def demoHost (op : HostOp) : State := { demo with host := [op], schedule := [.host] }

/-- What an outcome shows, where it is a next state. -/
def show? {α : Type} (r : Result) (f : State → Option α) : Option α :=
  match r with
  | .next s => f s
  | _ => none

/-- A field of `E[k]` after a step. -/
def after {α : Type} (r : Result) (k : Nat) (f : Engine → α) : Option α := show? r fun s => (s.engines[k]?).map f

/-! ### WellFormed and Decode -/

theorem test_wf_copy_source_exists :
    (Instr.copy 1#8).wf speedBuild = true ∧ (Instr.copy 2#8).wf speedBuild = false := by decide

theorem test_wf_testWr_needs_hook_and_table :
    (Instr.testWr 0#8 1#8).wf speedBuild = true ∧ (Instr.testWr 0#8 1#8).wf sizeBuild = false ∧
      (Instr.testWr 0#8 1#8).wf ⟨.speed, false, 2, 16⟩ = false := by decide

/-- LEN = 9, START = 0xFF, OP = 1, bit by bit (30_encoding.md R82). -/
theorem test_decode_calc :
    decode speedBuild 0b00001001_00000000_11111111_0000_0001#32 = .ok (.calculate 0xFF#8 9#8) := by decide

/-- LEN = 12, OFS = 2, START = 0x5A, OP = 2, bit by bit (30_encoding.md R82). -/
theorem test_decode_calcOfs :
    decode speedBuild 0b00001100_00000010_01011010_0000_0010#32 = .ok (.calculateOfs 2#8 0x5A#8 12#8) := by decide

/-- SRC = 1, OP = 3, bit by bit (30_encoding.md R83). -/
theorem test_decode_copy :
    decode speedBuild 0b00000000_00000000_00000001_0000_0011#32 = .ok (.copy 1#8) := by decide

/-- TVAL = 0xAA, TIDX = 5, OP = 4, bit by bit (30_encoding.md R84). -/
theorem test_decode_testWr :
    decode speedBuild 0b00000000_10101010_00000101_0000_0100#32 = .ok (.testWr 5#8 0xAA#8) := by decide

/-- 95_test_vectors.md 3.7, and R88's bullets at their boundaries. -/
theorem test_decode_illegal_words :
    decode speedBuild 0x00000000#32 = .error .reservedOpcode ∧ decode speedBuild 0x00000005#32 = .error .reservedOpcode ∧
    decode speedBuild 0x0000000F#32 = .error .reservedOpcode ∧ decode speedBuild 0x00000011#32 = .error .reservedBits ∧
    decode speedBuild 0xFFFFFF01#32 = .error .calcWithOffset ∧ decode speedBuild 0x80000003#32 = .error .copyHighBits ∧
    decode speedBuild 0x00000203#32 = .error .copyNoSuchSource ∧
    decode speedBuild 0x80AA0504#32 = .error .testWrHighBits ∧
    decode sizeBuild 0x00AA0504#32 = .error .testWrAbsent := by decide

/-- 95_test_vectors.md 3.7: the largest legal calculate words. -/
theorem test_decode_all_ones :
    decode speedBuild 0xFF00FF01#32 = .ok (.calculate 0xFF#8 0xFF#8) ∧
    decode speedBuild 0xFFFFFF02#32 = .ok (.calculateOfs 0xFF#8 0xFF#8 0xFF#8) := by decide

theorem test_decodeTableWord :
    decodeTableWord 32 0x09000001 = some (.calculate 0#8 9#8) ∧ decodeTableWord 32 0x0000FF03 = some (.copy 0xFF#8) ∧
    decodeTableWord 32 0x00AA0504 = some (.testWr 5#8 0xAA#8) ∧ decodeTableWord 32 0 = none := by decide

/-! ### The transform and generation -/

/-- 95_test_vectors.md section 2. -/
theorem test_polyT :
    polyT 0x00#8 = 0x00#8 ∧ polyT 0x01#8 = 0xD5#8 ∧ polyT 0x80#8 = 0xEF#8 ∧ polyT 0xFF#8 = 0xF9#8 ∧
    polyT 0x31#8 = 0x23#8 ∧ polyT 0x7F#8 = 0x16#8 ∧ polyT 0xD3#8 = 0x8A#8 ∧ polyT 0xB3#8 = 0xB3#8 := by decide

/-- 95_test_vectors.md 3.1, step 2: `LUT[0x01] <- 0xD5`, and the engine stays in GEN. -/
theorem test_gen_step :
    after (engineStep 0 (demoWith 0 { Engine.reset speedBuild with gidx := 1#9 })) 0
      (fun e => (Memory.read e.lut 1, e.gidx, e.ready, e.phase)) = some (some 0xD5#8, 2#9, false, .gen) := by decide

/-- 95_test_vectors.md 3.1, step 256: `LUT[0xFF] <- 0xF9`, READY = 1, idle. -/
theorem test_gen_last_step :
    after (engineStep 0 (demoWith 0 { Engine.reset speedBuild with gidx := 255#9 })) 0
      (fun e => (Memory.read e.lut 255, e.gidx, e.statusWord, e.phase)) =
        some (some 0xF9#8, 256#9, 0x00000001#32, .idle) := by decide

/-! ### CALC and CALC_OFS -/

/-- V-CALC-2: `CALC 0xFF, 0` starts from 0xF9. -/
theorem test_calc_accept :
    after (exec (.calculate 0xFF#8 9#8) demo) 0 (fun e => (e.c, e.abase, e.idx, e.endIdx, e.statusWord)) =
      some (0xF9#8, 0x0100#32, 0#8, 9#8, 0x00000003#32) := by decide +kernel

/-- V-CALC-13: the byte step at index 1 folds 0x32 into 0x23 and gives 0x87. -/
theorem test_byte_step :
    after (engineStep 0 (demoWith 0 (runningEngine 0x23#8 1#8 9#8))) 0 (fun e => (e.c, e.idx, e.result, e.phase)) =
      some (0x87#8, 2#8, 0#8, .calculate) := by decide +kernel

/-- 95_test_vectors.md 3.2, address wrap: under SIZE, with ADDR_W = 8 and ABASE = 0xFE, byte 2 is at 0x00; 0x87 and 0x33
give 0xE7. -/
theorem test_byte_step_wraps :
    after (engineStep 0 (sizeDemo.setEngine 0
        { Engine.reset sizeBuild with phase := .calculate, abase := 0xFE#32, c := 0x87#8, idx := 2#8, endIdx := 4#8 })) 0
      (fun e => (e.c, e.idx)) = some (0xE7#8, 3#8) := by decide

/-- V-CALC-13: the completion step shows 0xBC. -/
theorem test_complete_step :
    after (engineStep 0 (demoWith 0 (runningEngine 0xBC#8 9#8 9#8))) 0 (fun e => (e.result, e.statusWord)) =
      some (0xBC#8, 0x00000001#32) := by decide

/-- V-OFS-3: `CALC_OFS 3, 0x00, 4` starts at byte 3 from 0, and START has no part in it. -/
theorem test_calcOfs_accept :
    after (exec (.calculateOfs 3#8 0x77#8 4#8) demo) 0 (fun e => (e.c, e.idx, e.endIdx, e.phase)) =
      some (0#8, 3#8, 4#8, .calculate) := by decide

/-- 95_test_vectors.md 3.3: `CALC_OFS 4, 0, 4` (0x04040002) faults. -/
theorem test_calcOfs_fault :
    exec (.calculateOfs 4#8 0#8 4#8) demo = .fault (.offsetNotBelowLength 0 0x04040002#32) := by rfl

/-! ### COPY and TEST_WR -/

/-- V-COPY-3: a source that is not READY makes the command illegal; STATUS reads 5. -/
theorem test_copy_unready :
    after (exec (.copy 1#8) (demoWith 1 (Engine.reset speedBuild))) 0 (fun e => (e.statusWord, e.lsrc)) =
      some (0x00000005#32, 0#8) := by decide

/-- V-COPY-7: the changed entry is copied. -/
theorem test_copy_step :
    after (engineStep 0 ((demoWith 1 { idleEngine with lut := Memory.write generatedTable 0 0x01#8 }).setEngine 0
        { idleEngine with phase := .copy, lsrc := 1#8 })) 0
      (fun e => (Memory.read e.lut 0, Memory.read e.lut 255, e.phase)) =
        some (some 0x01#8, some 0xF9#8, .idle) := by decide +kernel

/-- V-TWR-2: `TEST_WR 0x05, 0xAA` is latched. -/
theorem test_testWr_accept :
    after (exec (.testWr 5#8 0xAA#8) demo) 0 (fun e => (e.ltidx, e.ltval, e.phase)) = some (5#8, 0xAA#8, .twr) := by decide

/-- V-TWR-2: `LUT[0x05] <- 0xAA`, and only that entry. -/
theorem test_twr_step :
    after (engineStep 0 (demoWith 0 { idleEngine with phase := .twr, ltidx := 5#8, ltval := 0xAA#8 })) 0
      (fun e => (Memory.read e.lut 4, Memory.read e.lut 5, Memory.read e.lut 6, e.phase)) =
        some (some 0xFE#8, some 0xAA#8, some 0x81#8, .idle) := by decide +kernel

/-! ### The port and reset -/

/-- V-ST-1, V-ST-4: an illegal word sets STATUS to 5; writing 0xFFFFFFF3 to STATUS clears nothing. -/
theorem test_status_port :
    after (step (demoHost (.regWrite 0 0#3 0#32))) 0 Engine.statusWord = some 0x00000005#32 ∧
    (idleEngine.setIllegal.clearStatus 0xFFFFFFF3#32).statusWord = 0x00000005#32 ∧
    (idleEngine.setIllegal.clearStatus 0x0000000C#32).statusWord = 0x00000001#32 := by decide

/-- V-ST-5: an illegal word while BUSY is an overrun only; STATUS reads 0xB. -/
theorem test_overrun :
    after (step { demoHost (.regWrite 0 0#3 0#32) with engines := [runningEngine 0#8 0#8 9#8, idleEngine] }) 0
      (fun e => (e.statusWord, e.phase)) = some (0x0000000B#32, .calculate) := by decide

/-- 95_test_vectors.md 3.8: CONFIG of the two builds. -/
theorem test_configWord :
    configWord ⟨.speed, false, 1, 16⟩ 0 = 0x0000D500#32 ∧ configWord ⟨.size, true, 4, 16⟩ 2 = 0x0302D505#32 := by decide

/-- 95_test_vectors.md 3.8: BASE with ADDR_W = 16 keeps 0x1234 of 0xDEAD1234. -/
theorem test_base_write :
    after (step (demoHost (.regWrite 1 2#3 0xDEAD1234#32))) 1 Engine.base = some 0x00001234#32 := by decide

theorem test_host_reads :
    show? (step (demoHost (.dataRead 0x0108#32))) (fun s => some s.reads) = some [0x00000039#32] ∧
    show? (step (demoHost (.regRead 1 4#3))) (fun s => some s.reads) = some [0x0101D504#32] ∧
    step (demoHost (.dataRead 0x10000#32)) = .fault (.noSuchAddress 0x10000#32) := ⟨by decide, by decide, rfl⟩

/-- 95_test_vectors.md 3.1: STATUS reads 2 from reset under SPEED and 1 under SIZE. -/
theorem test_reset_status :
    (Engine.reset speedBuild).statusWord = 0x00000002#32 ∧ (Engine.reset sizeBuild).statusWord = 0x00000001#32 := by decide

theorem test_reset_event :
    after (step { demoWith 0 (runningEngine 0xBC#8 9#8 9#8) with schedule := [.reset] }) 0
      (fun e => (e.result, e.phase, e.lut)) = some (0#8, .gen, []) := by decide

theorem test_elaborate :
    elaborate { strategy := .hardware, nInst := 0, addrW := 16 } = .error .hardwareStrategy ∧
    elaborate { strategy := .speed, nInst := 257, addrW := 16 } = .error .nInstOutOfRange ∧
    elaborate { strategy := .size, nInst := 256, addrW := 33 } = .error .addrWOutOfRange ∧
    elaborate { strategy := .size, nInst := 256, addrW := 32 } = .ok ⟨.size, false, 256, 32⟩ := by decide

/-- Each command of the opcode table, placed at reset, is what the next step runs. -/
theorem test_withFetchWord :
    after (step (State.reset.withFetchWord 32 0x0900FF01)) 0 (fun e => (e.c, e.endIdx, e.phase)) =
      some (0xF9#8, 9#8, .calculate) ∧
    after (step (State.reset.withFetchWord 32 0x0C020002)) 0 (fun e => (e.idx, e.endIdx, e.phase)) =
      some (2#8, 12#8, .calculate) ∧
    after (step (State.reset.withFetchWord 32 0x0000FF03)) 0 (fun e => (e.lsrc, e.phase)) = some (0xFF#8, .copy) ∧
    after (step (State.reset.withFetchWord 32 0x00AA0504)) 0 (fun e => (e.ltidx, e.ltval, e.phase)) =
      some (5#8, 0xAA#8, .twr) := by decide +kernel

/-- With nothing placed, the first step from a one-instance SPEED reset is its first generation step. -/
theorem test_reset_first_step :
    after (step (State.resetOf ⟨.speed, false, 1, 16⟩)) 0 (fun e => (Memory.read e.lut 0, e.gidx)) =
      some (some 0#8, 1#9) := by decide

end Sys2Proof.Tests
end

