-- ==== Sys2Proof/Tests/Witnesses.lean ====
section
/-! SUPPORT. For each statement of Certificates/Slice0/Obligations.lean that has hypotheses, a state and operands that meet
all of them, clause by clause where the statement has several; and two runs that are weakly fair. -/

namespace Sys2Proof.Tests

open Sys2Proof Sys2Proof.Machine

theorem generatedTable_ok :
    Memory.wf generatedTable = true ∧ Memory.Below 256 generatedTable ∧ TableFull generatedTable := by
  refine ⟨by decide +kernel, by decide +kernel, by decide +kernel⟩

/-- An engine of `speedBuild` with the generated table, not in GEN, meets the engines' invariant. -/
theorem constructed_inv {e : Engine} (hl : e.lut = generatedTable) (hr : e.ready = true) (hg : e.gidx = 256#9)
    (hp : e.phase ≠ .gen) (hb : e.base.toNat < 2 ^ 16 ∧ e.abase.toNat < 2 ^ 16)
    (hi : e.phase = .calculate → e.idx.toNat ≤ e.endIdx.toNat) : e.Inv speedBuild := by
  obtain ⟨h1, h2, h3⟩ := generatedTable_ok
  refine ⟨by rw [hl]; exact h1, by rw [hl]; exact h2, hb.1, hb.2, by simp [hr, hp], fun h => absurd h hp,
    ⟨fun _ _ => ⟨by rw [hl]; exact h3, hg⟩, fun h => by cases h⟩, hi, fun _ => ⟨rfl, rfl⟩⟩

theorem idleEngine_inv : idleEngine.Inv speedBuild :=
  constructed_inv rfl rfl rfl (by decide) (by decide) (by decide)

/-- `demo` meets the invariant and its tables are the generated ones. -/
theorem demo_inv : demo.Inv := by
  refine ⟨by decide, rfl, by decide, by decide, by decide, fun e he => ?_, fun e he => ?_⟩
  all_goals
    have : e = idleEngine := by simpa [demo] using he
    subst this
  · exact idleEngine_inv
  · intro h
    cases h

/-- So does `demo` with a running engine in the place of `E[0]`. -/
theorem running_inv {c idx endIdx : Byte} (h : idx.toNat ≤ endIdx.toNat) :
    (demoWith 0 (runningEngine c idx endIdx)).Inv :=
  State.setEngine_inv demo_inv (e := idleEngine) rfl
    (constructed_inv rfl rfl rfl (fun hp => by cases hp) ⟨by simp [runningEngine, idleEngine, Engine.constructed],
      by simp [runningEngine]⟩ fun _ => h) id (fun hp => by cases hp)

/-- So does `demo` with a generating engine in the place of `E[0]`. -/
theorem generating_inv : (demoWith 0 (Engine.reset speedBuild)).Inv := by
  refine ⟨by decide, rfl, by decide, by decide, by decide, fun e he => ?_, fun e he => ?_⟩
  all_goals
    have : e = Engine.reset speedBuild ∨ e = idleEngine := by simpa [demoWith, demo, State.setEngine] using he
  · rcases this with rfl | rfl
    · exact Engine.reset_inv _
    · exact idleEngine_inv
  · intro h
    rcases this with rfl | rfl <;> cases h

/-- The same with the generating engine in the place of `E[1]`. -/
theorem generating_inv' : (demoWith 1 (Engine.reset speedBuild)).Inv := by
  refine ⟨by decide, rfl, by decide, by decide, by decide, fun e he => ?_, fun e he => ?_⟩
  all_goals
    have : e = idleEngine ∨ e = Engine.reset speedBuild := by simpa [demoWith, demo, State.setEngine] using he
  · rcases this with rfl | rfl
    · exact idleEngine_inv
    · exact Engine.reset_inv _
  · intro h
    rcases this with rfl | rfl <;> cases h

theorem generatedTable_generated : TableGenerated generatedTable := by decide +kernel

theorem demo_tables : demo.TablesGenerated := by
  intro e he
  have : e = idleEngine := by simpa [demo] using he
  subst this
  exact generatedTable_generated

theorem sizeDemo_inv : sizeDemo.Inv := by decide +kernel

theorem demo_idlePort : demo.IdlePort idleEngine := ⟨rfl, rfl⟩

/-! ### The command word -/

theorem wit_DecodeOfEncode :
    (Instr.copy 1#8).wf speedBuild = true ∧ (Instr.testWr 0xFF#8 0xFF#8).wf speedBuild = true ∧
    (Instr.calculate 0xFF#8 0xFF#8).wf sizeBuild = true ∧ (Instr.calculateOfs 0xFF#8 0xFF#8 0xFF#8).wf sizeBuild = true := by
  decide

theorem wit_EncodeOfDecode :
    decode speedBuild 0xFFFFFF02#32 = .ok (.calculateOfs 0xFF#8 0xFF#8 0xFF#8) ∧
    (Instr.calculateOfs 0xFF#8 0xFF#8 0xFF#8).wf speedBuild = true ∧
    encode (.calculateOfs 0xFF#8 0xFF#8 0xFF#8) = 0xFFFFFF02#32 := by decide

/-- One word for each clause of the list, and legal words beside them. -/
theorem wit_IllegalWordsExactly :
    ([0x00000000#32, 0x00000005#32, 0x0000000F#32, 0x00000012#32, 0x00010001#32, 0x00010003#32, 0x00000203#32,
        0x01000004#32].all fun w => (decode speedBuild w).toOption = none) = true ∧
    (decode sizeBuild 0x00000004#32).toOption = none ∧ (decode ⟨.speed, false, 2, 16⟩ 0x00000004#32).toOption = none ∧
    ([0xFF00FF01#32, 0xFFFFFF02#32, 0x00000103#32, 0x00FFFF04#32].all fun w =>
        (decode speedBuild w).toOption ≠ none) = true := by decide

/-! ### The step -/

theorem wit_StepRunsDecodedCommand :
    let s := demoHost (HostOp.issue 1 (.calculate 0#8 9#8))
    s.schedule = [.host] ∧ s.host = [.regWrite 1 0#3 0x09000001#32] ∧ s.engines[1]? = some idleEngine ∧
    idleEngine.phase = .idle ∧ decode s.build 0x09000001#32 = .ok (.calculate 0#8 9#8) := by
  refine ⟨rfl, by decide, rfl, rfl, by decide⟩

theorem wit_StepIsOneEvent :
    (demoHost (.regRead 0 1#3)).schedule = [.host] ∧
    (demoWith 0 (runningEngine 0#8 0#8 9#8)).schedule = [] ∧
    (demoWith 0 (runningEngine 0#8 0#8 9#8)).enabledAgents = [.engine 0] := by
  refine ⟨rfl, rfl, by decide +kernel⟩

theorem wit_EndedRunKeepsState : demo.schedule = [] ∧ demo.host = [] ∧ ∀ e ∈ demo.engines, e.phase = .idle := by
  refine ⟨rfl, rfl, by decide⟩

/-- 95_test_vectors.md 3.2: a buffer of nine admitted bytes, and a CALC of ten. -/
theorem wit_UnadmittedReadIsStuck :
    let s := { demoWith 0 (runningEngine 0xBC#8 9#8 10#8) with launch := [⟨0x100, 9⟩] }
    s.engines[0]? = some (runningEngine 0xBC#8 9#8 10#8) ∧ (9#8).toNat < (10#8).toNat ∧
    s.admits ((0x0100#32).toNat + (9#8).toNat) = false ∧ s.admits 0x108 = true ∧
    s.schedule = [] ∧ s.host = [] ∧ s.engines[1]? = some idleEngine ∧ s.engines[2]? = none := by
  refine ⟨rfl, by decide, by decide, by decide, rfl, rfl, rfl, rfl⟩

theorem wit_BuildNeverChanges : ∃ t, step demo = .next t := ⟨_, rfl⟩

/-! ### Dropped commands -/

theorem wit_BusyWriteIsOverrun :
    let s := { demoHost (.regWrite 0 0#3 0#32) with engines := [runningEngine 0#8 0#8 9#8, idleEngine] }
    s.schedule = [.host] ∧ s.host = [.regWrite 0 0#3 0#32] ∧ s.engines[0]? = some (runningEngine 0#8 0#8 9#8) ∧
    (runningEngine 0#8 0#8 9#8).phase ≠ .idle := by
  refine ⟨rfl, rfl, rfl, by decide⟩

theorem wit_IllegalWriteIsDropped :
    let s := demoHost (.regWrite 0 0#3 0#32)
    s.schedule = [.host] ∧ s.host = [.regWrite 0 0#3 0#32] ∧ s.engines[0]? = some idleEngine ∧
    idleEngine.phase = .idle ∧ (decode s.build 0#32).toOption = none := by
  refine ⟨rfl, rfl, rfl, rfl, by decide⟩

theorem wit_CopyFromUnreadyIsIllegal :
    let s := demoWith 1 (Engine.reset speedBuild)
    s.IdlePort idleEngine ∧ (1#8).toNat < s.build.nInst ∧ s.engines[(1#8).toNat]? = some (Engine.reset speedBuild) ∧
    (Engine.reset speedBuild).ready = false := by
  refine ⟨⟨rfl, rfl⟩, by decide, rfl, rfl⟩

/-- A machine that meets the invariant with a BUSY engine behind the port, and one with a generating engine as a COPY's
source; the other clauses hold on `demo`. -/
theorem wit_CommandPriority :
    (demoWith 0 (runningEngine 0#8 0#8 9#8)).Inv ∧ (demoWith 1 (Engine.reset speedBuild)).Inv ∧ demo.Inv ∧
    demo.engines[demo.port]? = some idleEngine ∧ idleEngine.phase = .idle ∧
    (Instr.copy 2#8).wf demo.build = false ∧ (Instr.copy 1#8).wf demo.build = true ∧
    (demo.engines[(1#8).toNat]?).map Engine.ready = some true ∧
    ((demoWith 1 (Engine.reset speedBuild)).engines[(1#8).toNat]?).map Engine.ready = some false ∧
    (9#8).toNat ≤ (9#8).toNat ∧ (8#8).toNat < (9#8).toNat := by
  refine ⟨running_inv (by decide), generating_inv', demo_inv, rfl, rfl, by decide, by decide, rfl, rfl, by decide, by decide⟩

/-! ### Acceptance -/

theorem wit_CalcAccepted :
    demo.IdlePort idleEngine ∧ Memory.read idleEngine.lut (0xFF#8).toNat = some 0xF9#8 ∧
    sizeDemo.IdlePort { Engine.reset sizeBuild with base := 0xFE#32 } ∧ 0xF9#8 = polyT 0xFF#8 := by
  refine ⟨demo_idlePort, by decide +kernel, ⟨rfl, rfl⟩, by decide⟩

theorem wit_CalcOfsAccepted : demo.IdlePort idleEngine ∧ (3#8).toNat < (4#8).toNat := ⟨demo_idlePort, by decide⟩

theorem wit_CalcOfsFaultsAtAcceptance : demo.IdlePort idleEngine ∧ (4#8).toNat ≤ (4#8).toNat :=
  ⟨demo_idlePort, by decide⟩

theorem wit_CalcOfsIgnoresStart : ∃ t, exec (.calculateOfs 3#8 0#8 4#8) demo = .next t := ⟨_, rfl⟩

theorem wit_CopyAccepted :
    demo.IdlePort idleEngine ∧ (1#8).toNat < demo.build.nInst ∧ demo.engines[(1#8).toNat]? = some idleEngine ∧
    idleEngine.ready = true :=
  ⟨demo_idlePort, by decide, rfl, rfl⟩

theorem wit_TestWrAccepted :
    demo.IdlePort idleEngine ∧ demo.build.testHook = true ∧ demo.build.strategy = .speed :=
  ⟨demo_idlePort, rfl, rfl⟩

/-- An accepted command, an overrun and an illegal one. -/
theorem wit_CommandFrame :
    (∃ t, exec (.testWr 0#8 0#8) demo = .next t) ∧
    (∃ t, exec (.testWr 0#8 0#8) (demoWith 0 (runningEngine 0#8 0#8 9#8)) = .next t) ∧
    (∃ t, exec (.copy 2#8) demo = .next t) :=
  ⟨⟨_, rfl⟩, ⟨_, rfl⟩, ⟨_, rfl⟩⟩

/-! ### The engines' steps -/

/-- The last generation step and the one before it. -/
theorem wit_GenerationStep :
    let e := { Engine.reset speedBuild with gidx := 255#9 }
    let e' := { Engine.reset speedBuild with gidx := 254#9 }
    (demoWith 0 e).engines[0]? = some e ∧ e.phase = .gen ∧ e.gidx.toNat < 256 ∧ e.gidx.toNat = 255 ∧
    (demoWith 0 e').engines[0]? = some e' ∧ e'.phase = .gen ∧ e'.gidx.toNat < 256 ∧ e'.gidx.toNat ≠ 255 := by
  refine ⟨rfl, rfl, by decide, by decide, rfl, rfl, by decide, by decide⟩

/-- The last byte step of the check string under SPEED, and the wrapped one of `sizeDemo` under SIZE. -/
theorem wit_ByteStep :
    (let s := demoWith 0 (runningEngine 0x45#8 8#8 9#8)
     s.engines[0]? = some (runningEngine 0x45#8 8#8 9#8) ∧ (8#8).toNat < (9#8).toNat ∧
     s.admits ((0x0100#32).toNat + (8#8).toNat) = true ∧ s.byteAt ((0x0100#32).toNat + (8#8).toNat) = 0x39#8 ∧
     Memory.read idleEngine.lut (0x45#8 ^^^ 0x39#8).toNat = some 0xBC#8) ∧
    (sizeDemo.admits (((0xFE#32).toNat + (2#8).toNat) % 2 ^ sizeDemo.build.addrW) = true ∧
     sizeDemo.byteAt (((0xFE#32).toNat + (2#8).toNat) % 2 ^ sizeDemo.build.addrW) = 0x33#8 ∧
     0xE7#8 = polyT (0x87#8 ^^^ 0x33#8)) := by
  refine ⟨⟨rfl, by decide, by decide, by decide, by decide +kernel⟩, by decide, by decide, by decide⟩

theorem wit_CompletionStep :
    let e := runningEngine 0xBC#8 9#8 9#8
    (demoWith 0 e).engines[0]? = some e ∧ e.phase = .calculate ∧ e.idx = e.endIdx ∧ (demoWith 0 e).Inv := by
  refine ⟨rfl, rfl, rfl, running_inv (by decide)⟩

/-- A copy from the other engine, a self-copy, and a copy under SIZE. -/
theorem wit_CopyStep :
    let e := { idleEngine with phase := .copy, lsrc := 1#8 }
    let e' := { idleEngine with phase := .copy, lsrc := 0#8 }
    let e'' := { Engine.reset sizeBuild with phase := .copy, lsrc := 1#8 }
    (demoWith 0 e).Inv ∧ (demoWith 0 e).engines[0]? = some e ∧ e.lsrc.toNat ≠ 0 ∧
    (demoWith 0 e').Inv ∧ (demoWith 0 e').engines[0]? = some e' ∧ e'.lsrc.toNat = 0 ∧
    (sizeDemo.setEngine 0 e'').Inv ∧ (sizeDemo.setEngine 0 e'').engines[0]? = some e'' := by
  refine ⟨?_, rfl, by decide, ?_, rfl, by decide, by decide +kernel, rfl⟩
  · exact State.setEngine_inv demo_inv (e := idleEngine) rfl
      (constructed_inv rfl rfl rfl (by decide) (by decide) (by decide)) id (by decide)
  · exact State.setEngine_inv demo_inv (e := idleEngine) rfl
      (constructed_inv rfl rfl rfl (by decide) (by decide) (by decide)) id (by decide)

theorem wit_TestWrStep :
    let e := { idleEngine with phase := .twr, ltidx := 5#8, ltval := 0xAA#8 }
    (demoWith 0 e).engines[0]? = some e ∧ e.phase = .twr := ⟨rfl, rfl⟩

theorem wit_EngineStepTouchesItselfOnly :
    ∃ t, engineStep 0 (demoWith 0 (runningEngine 0xBC#8 9#8 9#8)) = .next t := ⟨_, rfl⟩

/-! ### The register window, data memory and reset -/

theorem wit_RegisterReads :
    demo.engines[1]? = some idleEngine ∧ 5 ≤ (5#3).toNat ∧ demo.Inv ∧ demo.build.addrW ≤ 16 :=
  ⟨rfl, by decide, demo_inv, by decide⟩

theorem wit_RegisterWrites : demo.engines[0]? = some idleEngine := rfl

theorem wit_ReservedRegisters :
    demo.engines[0]? = some idleEngine ∧ ([5#3, 6#3, 7#3].all fun r => r = 5#3 ∨ r = 6#3 ∨ r = 7#3) = true :=
  ⟨rfl, by decide⟩

/-- WAIT_IDLE on an engine that is BUSY and on one that is not. -/
theorem wit_PollRepeatsUntilSeen :
    let s := { demoHost (HostOp.waitIdle 0) with engines := [runningEngine 0#8 0#8 9#8, idleEngine] }
    s.host = [.poll 0 1#3 2#32 0#32] ∧ s.engines[0]? = some (runningEngine 0#8 0#8 9#8) ∧
    (runningEngine 0#8 0#8 9#8).readReg s.build 0 1#3 &&& 2#32 ≠ 0#32 ∧
    (demoHost (HostOp.waitIdle 0)).engines[0]? = some idleEngine ∧
    idleEngine.readReg s.build 0 1#3 &&& 2#32 = 0#32 := by
  refine ⟨rfl, rfl, by decide, rfl, by decide⟩

theorem wit_DataWriteThenRead : (0xFFFF#32).toNat < 2 ^ demo.build.addrW := by decide

theorem wit_OnlyHostWritesDataMemory :
    show? (runEvent .host (demoHost (.dataWrite 0x0104#32 0x55#8))) (fun t => some (t.byteAt 0x104)) = some 0x55#8 ∧
    demo.byteAt 0x104 = 0x35#8 := ⟨by decide, by decide⟩

theorem wit_ResetValues :
    demo.applyReset.engines[1]? = some (Engine.reset speedBuild) ∧
    sizeDemo.applyReset.engines[1]? = some (Engine.reset sizeBuild) := ⟨rfl, rfl⟩

theorem wit_ResetAbandonsOperations :
    { demoWith 0 (runningEngine 0#8 0#8 9#8) with schedule := [.reset] }.schedule = [.reset] := rfl

/-- The hardware strategy, and the least and the greatest parameters in range. -/
theorem wit_HardwareStrategyRejected :
    let p : Params := { strategy := .hardware, nInst := 1, addrW := 16 }
    let q : Params := { strategy := .speed, nInst := 1, addrW := 1 }
    let r : Params := { strategy := .size, testHook := true, nInst := 256, addrW := 32 }
    p.strategy = .hardware ∧ (1 ≤ q.nInst ∧ q.nInst ≤ 256 ∧ 1 ≤ q.addrW ∧ q.addrW ≤ 32 ∧ q.strategy = .speed) ∧
    (1 ≤ r.nInst ∧ r.nInst ≤ 256 ∧ 1 ≤ r.addrW ∧ r.addrW ≤ 32 ∧ r.strategy = .size) := by decide

/-! ### Invariants and whole-machine rules -/

theorem wit_ResetMeetsInv : Build.reference.Ok ∧ speedBuild.Ok ∧ sizeBuild.Ok := by decide

theorem wit_StepKeepsInv :
    (demoWith 0 (runningEngine 0#8 0#8 9#8)).Inv ∧
    after (step (demoWith 0 (runningEngine 0#8 0#8 9#8))) 0 Engine.idx = some 1#8 := by
  refine ⟨running_inv (by decide), by decide +kernel⟩

theorem wit_NoUnwrittenTableRead : demo.Inv := demo_inv

/-- Engines in GEN, idle, and with a command running, in machines that meet the invariant. -/
theorem wit_ReadyBusyPairs :
    (demoWith 0 (Engine.reset speedBuild)).Inv ∧ Engine.reset speedBuild ∈ (demoWith 0 (Engine.reset speedBuild)).engines ∧
    idleEngine ∈ (demoWith 0 (Engine.reset speedBuild)).engines ∧
    (demoWith 0 (runningEngine 0#8 0#8 9#8)).Inv ∧
    runningEngine 0#8 0#8 9#8 ∈ (demoWith 0 (runningEngine 0#8 0#8 9#8)).engines := by
  refine ⟨generating_inv, by simp [demoWith, demo, State.setEngine], by simp [demoWith, demo, State.setEngine],
    running_inv (by decide), by simp [demoWith, demo, State.setEngine]⟩

/-- A reset of a READY engine of a SPEED build. -/
theorem wit_ReadyStays :
    (∃ t, runEvent .reset demo = .next t ∧ t.engines[0]? = some (Engine.reset speedBuild)) ∧
    demo.engines[0]? = some idleEngine ∧ idleEngine.ready = true ∧ (Engine.reset speedBuild).ready = false :=
  ⟨⟨_, rfl, rfl⟩, rfl, rfl, rfl⟩

/-- CLEAR_ERR on an engine with both bits set. -/
theorem wit_StatusErrorsAreSticky :
    let e := idleEngine.setIllegal.setOverrun
    let s := { demoHost (HostOp.clearErr 0) with engines := [e, idleEngine] }
    s.engines[0]? = some e ∧ e.illegal = true ∧ e.overrun = true ∧
    after (runEvent .host s) 0 (fun x => (x.illegal, x.overrun)) = some (false, false) ∧
    s.host = [.regWrite 0 1#3 0xC#32] := by
  refine ⟨rfl, rfl, rfl, by decide, rfl⟩

theorem wit_OnlyCompletionWritesResult :
    let e := runningEngine 0xBC#8 9#8 9#8
    (demoWith 0 e).engines[0]? = some e ∧ e.result = 0#8 ∧
    after (runEvent (.engine 0) (demoWith 0 e)) 0 Engine.result = some 0xBC#8 := by
  refine ⟨rfl, rfl, by decide⟩

theorem wit_OnlyThreeStepsWriteTable :
    let e := { idleEngine with phase := .twr, ltidx := 0#8, ltval := 0x01#8 }
    (demoWith 0 e).engines[0]? = some e ∧ Memory.read e.lut 0 = some 0#8 ∧
    after (runEvent (.engine 0) (demoWith 0 e)) 0 (fun x => Memory.read x.lut 0) = some (some 0x01#8) := by
  refine ⟨rfl, by decide, by decide⟩

/-- A BASE write while a calculate runs. -/
theorem wit_RunningCalculateKeepsOperands :
    let s := { demoHost (HostOp.setBase 0 0x0200#32) with engines := [runningEngine 0#8 0#8 9#8, idleEngine] }
    s.engines[0]? = some (runningEngine 0#8 0#8 9#8) ∧ (runningEngine 0#8 0#8 9#8).phase = .calculate ∧
    after (runEvent .host s) 0 (fun e => (e.base, e.abase)) = some (0x0200#32, 0x0100#32) := by
  refine ⟨rfl, rfl, by decide⟩

/-- A machine without the hook, and one with it whose `E[0]` is being generated and moves next. -/
theorem wit_TablesStayGenerated :
    let s := { demo with build := ⟨.speed, false, 2, 16⟩ }
    let u := { demoWith 0 (Engine.reset speedBuild) with schedule := [.engine 0] }
    (s.Inv ∧ s.build.testHook = false ∧ s.TablesGenerated ∧ ∃ t, step s = .next t) ∧
    (u.Inv ∧ (∀ e ∈ u.engines, e.phase = .gen → TableGenerated e.lut) ∧
      after (step u) 0 (fun e => (e.phase, Memory.read e.lut 0)) = some (.gen, some 0#8)) := by
  refine ⟨⟨?_, rfl, demo_tables, ⟨_, rfl⟩⟩, generating_inv, fun e he => ?_, by decide⟩
  rotate_left
  · have : e = Engine.reset speedBuild ∨ e = idleEngine := by simpa [demoWith, demo, State.setEngine] using he
    rcases this with rfl | rfl
    · exact fun _ _ hc => nomatch hc
    · exact fun _ => generatedTable_generated
  obtain ⟨-, h₂, h₃, h₄, h₅, h₆, h₇⟩ := demo_inv
  refine ⟨by decide, h₂, h₃, h₄, h₅, fun e he => ?_, h₇⟩
  obtain ⟨i₁, i₂, i₃, i₄, i₅, i₆, i₇, i₈, -⟩ := h₆ e he
  have : e = idleEngine := by simpa [demo] using he
  subst this
  exact ⟨i₁, i₂, i₃, i₄, i₅, i₆, i₇, i₈, by decide⟩

/-! ### The transform -/

theorem wit_TransformIsInjective : polyT 0x31#8 = polyT 0x31#8 := rfl

theorem wit_XformByIsXform :
    speedBuild.strategy = .speed ∧ TableFull generatedTable ∧ TableGenerated generatedTable := by
  exact ⟨rfl, generatedTable_ok.2.2, generatedTable_generated⟩

/-! ### Whole commands -/

theorem wit_GenerationBuildsTable : speedBuild.Ok ∧ speedBuild.strategy = .speed ∧ 1 < speedBuild.nInst := by decide

/-- No byte, and the nine bytes of the check string. -/
theorem wit_CalcResult :
    demo.Inv ∧ demo.IdlePort idleEngine ∧ demo.AdmitsBuffer idleEngine.base 0 (0#8).toNat ∧
    demo.AdmitsBuffer idleEngine.base 0 (9#8).toNat :=
  ⟨demo_inv, demo_idlePort, by decide, by decide⟩

theorem wit_CalcOfsResult :
    demo.Inv ∧ demo.IdlePort idleEngine ∧ (3#8).toNat < (4#8).toNat ∧
    demo.AdmitsBuffer idleEngine.base (3#8).toNat ((4#8).toNat - (3#8).toNat) :=
  ⟨demo_inv, demo_idlePort, by decide, by decide⟩

theorem wit_CalcBusyUntilComplete :
    demo.Inv ∧ demo.IdlePort idleEngine ∧ demo.AdmitsBuffer idleEngine.base 0 (9#8).toNat ∧ 9 ≤ (9#8).toNat ∧
    (3#8).toNat < (9#8).toNat ∧ demo.AdmitsBuffer idleEngine.base (3#8).toNat ((9#8).toNat - (3#8).toNat) ∧
    6 ≤ (9#8).toNat - (3#8).toNat :=
  ⟨demo_inv, demo_idlePort, by decide, by decide, by decide, by decide, by decide⟩

theorem wit_CalcClosedForm :
    demo.Inv ∧ demo.TablesGenerated ∧ demo.IdlePort idleEngine ∧ demo.AdmitsBuffer idleEngine.base 0 (9#8).toNat :=
  ⟨demo_inv, demo_tables, demo_idlePort, by decide⟩

/-- A SPEED and a SIZE machine with the same data memory and BASE. -/
theorem wit_StrategiesAgree :
    let b₂ : Build := ⟨.size, false, 1, 16⟩
    let e₂ : Engine := { Engine.reset b₂ with base := 0x0100#32 }
    let s₂ : State := { State.resetOf b₂ with engines := [e₂], mem := demo.mem }
    demo.Inv ∧ s₂.Inv ∧ demo.TablesGenerated ∧ s₂.TablesGenerated ∧ demo.IdlePort idleEngine ∧ s₂.IdlePort e₂ ∧
    demo.build.addrW = s₂.build.addrW ∧ demo.mem = s₂.mem ∧ idleEngine.base = e₂.base ∧
    demo.AdmitsBuffer idleEngine.base 0 (9#8).toNat ∧ s₂.AdmitsBuffer e₂.base 0 (9#8).toNat ∧
    (3#8).toNat < (9#8).toNat ∧ demo.AdmitsBuffer idleEngine.base (3#8).toNat ((9#8).toNat - (3#8).toNat) ∧
    s₂.AdmitsBuffer e₂.base (3#8).toNat ((9#8).toNat - (3#8).toNat) := by
  refine ⟨demo_inv, by decide +kernel, demo_tables, by decide, demo_idlePort, ⟨rfl, rfl⟩, rfl, rfl, rfl, by decide,
    by decide, by decide, by decide, by decide⟩

/-- The first offset, and one inside the buffer. -/
theorem wit_OffsetVariantConsistency :
    demo.Inv ∧ demo.TablesGenerated ∧ demo.IdlePort idleEngine ∧
    ((0#8).toNat < (4#8).toNat ∧ demo.AdmitsBuffer idleEngine.base (0#8).toNat ((4#8).toNat - (0#8).toNat) ∧
      (0x0101#32).toNat = (idleEngine.base.toNat + (0#8).toNat + 1) % 2 ^ demo.build.addrW) ∧
    ((3#8).toNat < (9#8).toNat ∧ demo.AdmitsBuffer idleEngine.base (3#8).toNat ((9#8).toNat - (3#8).toNat) ∧
      (0x0104#32).toNat = (idleEngine.base.toNat + (3#8).toNat + 1) % 2 ^ demo.build.addrW) :=
  ⟨demo_inv, demo_tables, demo_idlePort, ⟨by decide, by decide, by decide⟩, by decide, by decide, by decide⟩

/-- A CALC of no byte and a CALC_OFS of one byte, their steps between steps of the other engine. -/
theorem wit_InterleavedCalcResult :
    demo.Inv ∧ demo.IdlePort idleEngine ∧
    ((∀ ev ∈ [Event.engine 1, .engine 0, .engine 1], ∃ j, ev = .engine j) ∧
      demo.AdmitsBuffer idleEngine.base 0 (0#8).toNat ∧
      after (exec (.calculate 0#8 0#8) demo) 0 Engine.phase = some .calculate ∧
      [Event.engine 1, .engine 0, .engine 1].count (.engine demo.port) = (0#8).toNat + 1) ∧
    ((∀ ev ∈ [Event.engine 0, .engine 1, .engine 0], ∃ j, ev = .engine j) ∧ (3#8).toNat < (4#8).toNat ∧
      demo.AdmitsBuffer idleEngine.base (3#8).toNat ((4#8).toNat - (3#8).toNat) ∧
      after (exec (.calculateOfs 3#8 0#8 4#8) demo) 0 Engine.phase = some .calculate ∧
      [Event.engine 0, .engine 1, .engine 0].count (.engine demo.port) = (4#8).toNat - (3#8).toNat + 1) :=
  ⟨demo_inv, demo_idlePort, ⟨by simp, by decide, by decide, by decide⟩, by simp, by decide, by decide, by decide,
    by decide⟩

theorem wit_CopyIsDeep :
    demo.Inv ∧ demo.build.strategy = .speed ∧ demo.IdlePort idleEngine ∧ (1#8).toNat < demo.build.nInst ∧
    (1#8).toNat ≠ demo.port ∧ demo.engines[(1#8).toNat]? = some idleEngine ∧ idleEngine.ready = true ∧
    demo.build.testHook = true ∧ idleEngine.phase = .idle :=
  ⟨demo_inv, rfl, demo_idlePort, by decide, by decide, rfl, rfl, rfl, rfl⟩

theorem wit_TestWrShowsInResult :
    demo.IdlePort idleEngine ∧ demo.build.testHook = true ∧ demo.build.strategy = .speed :=
  ⟨demo_idlePort, rfl, rfl⟩

/-! ### Races -/

/-- The host is about to write the byte that the first byte step of the check string reads. -/
theorem wit_BufferRaceHasBothOutcomes :
    let e := runningEngine 0x00#8 0#8 9#8
    let s := { demoHost (.dataWrite 0x0100#32 0xFF#8) with engines := [e, idleEngine] }
    s.engines[0]? = some e ∧ e.phase = .calculate ∧ e.idx.toNat < e.endIdx.toNat ∧
    (0x0100#32).toNat = (e.abase.toNat + e.idx.toNat) % 2 ^ s.build.addrW ∧ s.admits (0x0100#32).toNat = true ∧
    xformBy s.build e.lut e.c (s.byteAt (0x0100#32).toNat) = some 0x23#8 ∧
    xformBy s.build e.lut e.c 0xFF#8 = some 0xF9#8 ∧ s.host = [.dataWrite 0x0100#32 0xFF#8] := by
  refine ⟨rfl, rfl, by decide, by decide, by decide, by decide +kernel, by decide +kernel, rfl⟩

/-- `E[1]` copies from `E[0]`, whose TEST_WR of entry 0 is pending. -/
theorem wit_CopyRaceHasBothOutcomes :
    let source := { idleEngine with phase := .twr, ltidx := 0#8, ltval := 0x01#8 }
    let e := { idleEngine with phase := .copy, lsrc := 0#8 }
    let s := { demo with engines := [source, e] }
    s.build.strategy = .speed ∧ s.engines[0]? = some source ∧ source.phase = .twr ∧ TableFull source.lut ∧
    s.engines[1]? = some e ∧ e.phase = .copy ∧ e.lsrc.toNat = 0 :=
  ⟨rfl, rfl, rfl, generatedTable_ok.2.2, rfl, rfl, by decide⟩

/-! ### Weak fairness -/

/-- `E[0]` has one step left, and it is scheduled; after it the run has ended. -/
def fairRun : Nat → State
  | 0 => { demoWith 0 (runningEngine 0xBC#8 9#8 9#8) with schedule := [.engine 0] }
  | _ => demoWith 0 { runningEngine 0xBC#8 9#8 9#8 with phase := .idle, result := 0xBC#8 }

theorem fairRun_ended_canStep (k : Nat) : (fairRun 1).canStep k = false := by
  match k with
  | 0 => rfl
  | 1 => rfl
  | _ + 2 => rfl

/-- The hypotheses of `WeaklyFair.calculate_ends`: a weakly fair run without a reset, in which a calculate is about to
complete. -/
theorem wit_calculate_ends :
    IsRun fairRun ∧ WeaklyFair fairRun ∧ NoResetFrom fairRun 0 ∧
    (fairRun 0).engines[0]? = some (runningEngine 0xBC#8 9#8 9#8) := by
  refine ⟨fun n => ?_, fun k n h => ?_, fun m _ => ?_, rfl⟩
  · cases n <;> rfl
  · have := h (n + 1) (by omega)
    rw [show fairRun (n + 1) = fairRun 1 from rfl, fairRun_ended_canStep] at this
    cases this
  · cases m with
    | zero => exact (by decide : (fairRun 0).nextMove ≠ some .reset)
    | succ => exact (by decide : (fairRun 1).nextMove ≠ some .reset)

/-- `E[0]` has its last generation step left, and it is scheduled; after it the run has ended. -/
def fairGeneration : Nat → State
  | 0 => { demoWith 0 { Engine.reset speedBuild with gidx := 255#9 } with schedule := [.engine 0] }
  | _ => demoWith 0 ({ Engine.reset speedBuild with gidx := 255#9 } : Engine).generate

/-- The hypotheses of `WeaklyFair.generation_ends`. -/
theorem wit_generation_ends :
    IsRun fairGeneration ∧ WeaklyFair fairGeneration ∧ NoResetFrom fairGeneration 0 ∧
    (fairGeneration 0).engines[0]? = some { Engine.reset speedBuild with gidx := 255#9 } ∧ (255#9).toNat < 256 := by
  have hend : ∀ k, (fairGeneration 1).canStep k = false := fun k => by
    match k with
    | 0 => rfl
    | 1 => rfl
    | _ + 2 => rfl
  refine ⟨fun n => ?_, fun k n h => ?_, fun m _ => ?_, rfl, by decide⟩
  · cases n <;> rfl
  · have := h (n + 1) (by omega)
    rw [show fairGeneration (n + 1) = fairGeneration 1 from rfl, hend] at this
    cases this
  · cases m with
    | zero => exact (by decide : (fairGeneration 0).nextMove ≠ some .reset)
    | succ => exact (by decide : (fairGeneration 1).nextMove ≠ some .reset)

end Sys2Proof.Tests
end

namespace Sys2Proof.Machine

/-! ### Who moves next -/

/-- The first event of the schedule is the next move. -/
theorem State.nextMove_of_schedule {s : State} {ev : Event} {sched : List Event} (h : s.schedule = ev :: sched) :
    s.nextMove = some ev := by
  simp [State.nextMove, h]

theorem State.useMove_of_schedule {s : State} {ev : Event} {sched : List Event} (h : s.schedule = ev :: sched) :
    s.useMove = { s with schedule := sched } := by
  simp [State.useMove, h]

/-- Without a schedule a move uses up one value of the counter. -/
theorem State.useMove_of_no_schedule {s : State} (h : s.schedule = []) :
    s.useMove = { s with choices := s.choices + 1 } := by
  simp [State.useMove, h]

/-- The free choice stays among the agents it is given. -/
theorem pickAgent_mem (ev : Event) (rest : List Event) (n : Nat) : pickAgent ev rest n ∈ ev :: rest := by
  cases rest with
  | nil => exact List.mem_cons_self
  | cons ev' rest =>
    have hlt : Config.agentChoice n % ((ev' :: rest).length + 1) < (ev :: ev' :: rest).length :=
      Nat.mod_lt _ (Nat.succ_pos _)
    simp only [pickAgent, List.getD_eq_getElem _ _ hlt]
    exact List.getElem_mem hlt

/-- Without a schedule the next move is one of the enabled agents, where there is one. -/
theorem State.nextMove_mem_enabledAgents {s : State} (h : s.schedule = []) (ha : s.enabledAgents ≠ []) :
    ∃ ev ∈ s.enabledAgents, s.nextMove = some ev := by
  cases hag : s.enabledAgents with
  | nil => exact absurd hag ha
  | cons ev rest => exact ⟨_, pickAgent_mem ev rest s.choices, by simp [State.nextMove, h, hag]⟩

/-- Without a schedule and without an enabled agent nobody moves. -/
theorem State.nextMove_eq_none {s : State} (h : s.schedule = []) (ha : s.enabledAgents = []) : s.nextMove = none := by
  simp [State.nextMove, h, ha]

/-- An idle engine has no enabled step (60_exceptions.md R176). -/
theorem State.enabledStep_idle {s : State} {e : Engine} (hp : e.phase = .idle) : s.enabledStep e = none := by
  simp [State.enabledStep, hp]

/-- A machine of idle engines has no engine that can step. -/
theorem State.canStep_of_all_idle {s : State} (hidle : ∀ e ∈ s.engines, e.phase = .idle) (k : Nat) :
    s.canStep k = false := by
  unfold State.canStep
  split
  · rfl
  · next e he => simp [State.enabledStep_idle (hidle e (List.mem_of_getElem? he))]

/-- Idle engines and a host without transactions leave no enabled agent. -/
theorem State.enabledAgents_of_all_idle {s : State} (hhost : s.host = [])
    (hidle : ∀ e ∈ s.engines, e.phase = .idle) : s.enabledAgents = [] := by
  simp [State.enabledAgents, hhost, State.canStep_of_all_idle hidle]

/-- Where nobody moves and every engine is idle, the step answers the same state. -/
theorem step_of_all_idle {s : State} (hm : s.nextMove = none) (hidle : ∀ e ∈ s.engines, e.phase = .idle) :
    step s = .next s := by
  have hbusy : s.engines.any Engine.busy = false := by
    simpa [List.any_eq_false] using hidle
  simp [step, nextEvent, hm, hbusy]

/-- Settles O6: the next move is the schedule's first event, or the free choice, which stays among the enabled agents. -/
theorem stepIsOneEvent : Obligations.StepIsOneEvent := by
  refine fun s => ⟨fun ev sched hs => ?_, fun hs ha => ?_⟩
  · rw [step_of_nextMove (State.nextMove_of_schedule hs), State.useMove_of_schedule hs]
  · obtain ⟨ev, hev, hm⟩ := State.nextMove_mem_enabledAgents hs ha
    exact ⟨ev, hev, by rw [step_of_nextMove hm, State.useMove_of_no_schedule hs]⟩

/-- Settles O7: no agent is enabled, and no engine is busy. -/
theorem endedRunKeepsState : Obligations.EndedRunKeepsState := fun _ hsched hhost hidle =>
  step_of_all_idle (State.nextMove_eq_none hsched (State.enabledAgents_of_all_idle hhost hidle)) hidle

/-! ### What no step changes -/

/-- No event changes the number of instances. -/
theorem runEvent_engines_length {s t : State} {ev : Event} (h : runEvent ev s = .next t) :
    t.engines.length = s.engines.length := by
  cases ev with
  | host =>
    simp only [runEvent, hostStep] at h
    split at h
    · cases h; rfl
    · rcases hostOp_cases h with ⟨r, rfl⟩ | ⟨a, b, -, -, rfl⟩ | ⟨j, r, m, v, -, rfl⟩ | ⟨j, r, w, x, -, -, -, rfl⟩ |
        ⟨j, w, x, -, hx, hc⟩
      iterate 3 rfl
      · simp
      · obtain ⟨x', -, rfl⟩ := cmdWrite_cases hx hc
        simp
  | reset => cases h; simp
  | engine j => rcases engineStep_cases h with rfl | ⟨x, x', -, -, rfl⟩ <;> simp

/-- Settles O9: no event changes them, and a step is one event or none. -/
theorem buildNeverChanges : Obligations.BuildNeverChanges := by
  intro s t h
  rcases step_cases h with rfl | ⟨ev, sched, n, hev⟩
  · exact ⟨rfl, rfl, rfl⟩
  · obtain ⟨hbuild, hlaunch⟩ := runEvent_keeps hev
    exact ⟨hbuild, hlaunch, by simpa using runEvent_engines_length hev⟩

/-! ### Elaboration -/

theorem elaborate_hardware {p : Params} (h : p.strategy = .hardware) : elaborate p = .error .hardwareStrategy := by
  simp [elaborate, h]

/-- The selector that asks for a strategy (00_scope.md R4). -/
def Strategy.sel : Strategy → StrategySel
  | .speed => .speed
  | .size => .size

/-- Parameters in range with `SPEED` or `SIZE` elaborate to their build (00_scope.md R9). -/
theorem elaborate_of_ok {p : Params} (st : Strategy) (h : p.strategy = Strategy.sel st)
    (hok : (⟨st, p.testHook, p.nInst, p.addrW⟩ : Build).Ok) :
    elaborate p = .ok ⟨st, p.testHook, p.nInst, p.addrW⟩ := by
  have hn : 1 ≤ p.nInst ∧ p.nInst ≤ 256 := ⟨hok.1, hok.2.1⟩
  have ha : 1 ≤ p.addrW ∧ p.addrW ≤ 32 := hok.2.2
  cases st with
  | speed => simp [elaborate, h, Strategy.sel, hn, ha]
  | size => simp [elaborate, h, Strategy.sel, hn, ha]

/-- What elaborates comes up as the reset machine of its build. -/
theorem boot_of_elaborate {p : Params} {b : Build} (h : elaborate p = .ok b) : boot p = .ok (State.resetOf b) := by
  simp [boot, h, Except.map]

/-- What does not elaborate is no machine. -/
theorem boot_of_elaborate_error {p : Params} {r : BuildError} (h : elaborate p = .error r) :
    (boot p).toOption = none := by
  simp [boot, h, Except.map, Except.toOption]

/-- Settles O35: the machine a build comes up as follows from what `elaborate` answers. -/
theorem hardwareStrategyRejected : Obligations.HardwareStrategyRejected := by
  refine fun p => ⟨fun h => ?_, fun hn hn' ha ha' => ⟨fun h => ?_, fun h => ?_⟩⟩
  · exact ⟨elaborate_hardware h, boot_of_elaborate_error (elaborate_hardware h)⟩
  · have he := elaborate_of_ok .speed h ⟨hn, hn', ha, ha'⟩
    exact ⟨he, boot_of_elaborate he⟩
  · have he := elaborate_of_ok .size h ⟨hn, hn', ha, ha'⟩
    exact ⟨he, boot_of_elaborate he⟩

end Sys2Proof.Machine

namespace Sys2Proof.Machine

/-! ### The engines' steps keep the invariant, and none of them faults under it -/

/-- A write keeps a table full. -/
theorem TableFull.write {lut : Memory} (h : TableFull lut) (a : Nat) (b : Byte) : TableFull (Memory.write lut a b) := by
  intro i hi
  rw [Memory.read_write]
  split
  · rfl
  · exact h i hi

/-- An engine outside GEN that becomes idle, with a table that suits its strategy, meets the engines' invariant. -/
theorem Engine.inv_idle {b : Build} {e : Engine} (h : e.Inv b) (hp : e.phase ≠ .gen) {lut : Memory} (result : Byte)
    (hwf : Memory.wf lut = true) (hbelow : Memory.Below 256 lut)
    (hlut : (b.strategy = .speed → TableFull lut) ∧ (b.strategy = .size → lut = [])) :
    ({ e with result := result, lut := lut, phase := .idle } : Engine).Inv b := by
  have hready := Engine.ready_of_not_gen h hp
  obtain ⟨-, -, hbase, habase, -, -, ⟨hspeed, hsize⟩, -, -⟩ := h
  refine ⟨hwf, hbelow, hbase, habase, ⟨fun hr => ?_, nofun⟩, nofun, ⟨fun hs _ => ?_, fun hs => ?_⟩, nofun, nofun⟩
  · simp [hready] at hr
  · exact ⟨hlut.1 hs, (hspeed hs hready).2⟩
  · exact ⟨hlut.2 hs, (hsize hs).2⟩

/-- An engine's own table suits its strategy once it is READY (10_state.md R25, R31). -/
theorem Engine.table_of_ready {b : Build} {e : Engine} (h : e.Inv b) (hr : e.ready = true) :
    (b.strategy = .speed → TableFull e.lut) ∧ (b.strategy = .size → e.lut = []) := by
  obtain ⟨-, -, -, -, -, -, ⟨hspeed, hsize⟩, -, -⟩ := h
  exact ⟨fun hs => (hspeed hs hr).1, fun hs => (hsize hs).1⟩

/-- The entry that a generation step writes, and the count after it (41_lut_gen.md R111). -/
theorem Engine.gidx_step {e : Engine} (h : e.gidx.toNat < 256) :
    (e.gidx.setWidth 8).toNat = e.gidx.toNat ∧ (e.gidx + 1#9).toNat = e.gidx.toNat + 1 := by
  constructor
  · rw [BitVec.toNat_setWidth]
    exact Nat.mod_eq_of_lt h
  · rw [BitVec.toNat_add]
    exact Nat.mod_eq_of_lt (by simp; omega)

/-- After a generation step the entries up to GIDX are the written ones. -/
theorem Engine.generate_written {b : Build} {e : Engine} (h : e.GenOk b) (v : Byte) :
    ∀ i < 256, (Memory.read (Memory.write e.lut e.gidx.toNat v) i).isSome = decide (i < e.gidx.toNat + 1) := by
  obtain ⟨-, -, hwritten⟩ := h
  intro i hi
  rw [Memory.read_write]
  split
  · next heq => simp [heq]
  · next hne => rw [hwritten i hi]; exact decide_eq_decide.mpr (by omega)

/-- A generation step keeps the engines' invariant. -/
theorem Engine.generate_inv {b : Build} {e : Engine} (h : e.Inv b) (hp : e.phase = .gen) : e.generate.Inv b := by
  obtain ⟨hwf, hbelow, hbase, habase, hready, hgen, -, -, -⟩ := h
  have hg := hgen hp
  obtain ⟨hspeed, hlt, -⟩ := id hg
  obtain ⟨hi, hsucc⟩ := Engine.gidx_step hlt
  have hwritten := Engine.generate_written hg (polyT (e.gidx.setWidth 8))
  have hwf' := Memory.wf_write hwf e.gidx.toNat (polyT (e.gidx.setWidth 8))
  have hbelow' := Memory.below_write hbelow hlt (polyT (e.gidx.setWidth 8))
  have hsize : b.strategy ≠ .size := by simp [hspeed]
  unfold Engine.generate
  simp only [hi]
  split
  · next hlast =>
    have hend : e.gidx.toNat + 1 = 256 := by rw [← hsucc, hlast]; rfl
    refine ⟨hwf', hbelow', hbase, habase, ⟨nofun, nofun⟩, nofun,
      ⟨fun _ _ => ⟨fun i hi => ?_, hlast⟩, fun hs => absurd hs hsize⟩, nofun, nofun⟩
    rw [hwritten i hi, decide_eq_true_eq]
    omega
  · next hlast =>
    have hend : e.gidx.toNat + 1 ≠ 256 := fun h => hlast (BitVec.eq_of_toNat_eq (by rw [hsucc, h]; rfl))
    have hunready : e.ready = false := hready.mpr hp
    refine ⟨hwf', hbelow', hbase, habase, hready, fun _ => ⟨hspeed, ?_, fun i hi => ?_⟩,
      ⟨fun _ hr => ?_, fun hs => absurd hs hsize⟩, fun hc => ?_, fun ht => ?_⟩
    · simp only [hsucc]; omega
    · simp only [hsucc]; exact hwritten i hi
    · simp [hunready] at hr
    · simp [hp] at hc
    · simp [hp] at ht

/-- IDX does not wrap where it is below END (42_calculate.md R123). -/
theorem Engine.idx_step {e : Engine} (h : e.idx.toNat < e.endIdx.toNat) : (e.idx + 1#8).toNat = e.idx.toNat + 1 := by
  have := e.endIdx.isLt
  rw [BitVec.toNat_add]
  exact Nat.mod_eq_of_lt (by simp; omega)

/-- What a step of `E[k]` turns its engine into meets the engines' invariant. -/
theorem EngineEffect.inv {s : State} {k : Nat} {e e' : Engine} (hs : s.Inv) (he : s.engines[k]? = some e)
    (h : EngineEffect s k e e') : e'.Inv s.build := by
  have hi := State.engine_inv hs he
  obtain ⟨hwf, hbelow, hbase, habase, hready, -, hstrat, -, htwr⟩ := id hi
  have htable := fun hp : e.phase ≠ .gen => Engine.table_of_ready hi (Engine.ready_of_not_gen hi hp)
  cases h with
  | gen hp => exact Engine.generate_inv hi hp
  | byte hp hlt =>
    refine ⟨hwf, hbelow, hbase, habase, hready, fun hg => ?_, hstrat, fun _ => ?_, htwr⟩
    · simp [hp] at hg
    · simp only [Engine.idx_step hlt]; omega
  | complete hp =>
    have hp' : e.phase ≠ .gen := by simp [hp]
    exact Engine.inv_idle hi hp' e.c hwf hbelow (htable hp')
  | copyNone hp =>
    have hp' : e.phase ≠ .gen := by simp [hp]
    exact Engine.inv_idle hi hp' e.result hwf hbelow (htable hp')
  | copy hp hspeed _ hsource hfull =>
    obtain ⟨hwf', hbelow', -⟩ := State.engine_inv hs hsource
    exact Engine.inv_idle hi (by simp [hp]) e.result hwf' hbelow'
      ⟨fun _ => hfull, fun hsize => by simp [hspeed] at hsize⟩
  | twr hp =>
    have hp' : e.phase ≠ .gen := by simp [hp]
    have hspeed : s.build.strategy = .speed := (htwr hp).2
    exact Engine.inv_idle hi hp' e.result (Memory.wf_write hwf _ _) (Memory.below_write hbelow e.ltidx.isLt _)
      ⟨fun hs => ((htable hp').1 hs).write _ _, fun hsize => by simp [hspeed] at hsize⟩

/-- No step of an engine takes READY from it. -/
theorem EngineEffect.ready {s : State} {k : Nat} {e e' : Engine} (h : EngineEffect s k e e') (hr : e.ready = true) :
    e'.ready = true := by
  cases h with
  | gen =>
    simp only [Engine.generate]
    split
    · rfl
    · exact hr
  | byte => exact hr
  | complete => exact hr
  | copyNone => exact hr
  | copy => exact hr
  | twr => exact hr

/-- No step of an engine leaves it in COPY. -/
theorem EngineEffect.phase_ne_copy {s : State} {k : Nat} {e e' : Engine} (h : EngineEffect s k e e') :
    e'.phase ≠ .copy := by
  cases h with
  | gen hp =>
    simp only [Engine.generate]
    split
    · nofun
    · simp [hp]
  | byte hp => simp [hp]
  | complete => nofun
  | copyNone => nofun
  | copy => nofun
  | twr => nofun

/-- An engine's step keeps the machine's invariant. -/
theorem engineStep_keeps_inv {k : Nat} {s t : State} (hs : s.Inv) (h : engineStep k s = .next t) : t.Inv := by
  rcases engineStep_cases h with rfl | ⟨e, e', he, heff, rfl⟩
  · exact hs
  · exact State.setEngine_inv hs he (heff.inv hs he) heff.ready fun hp => absurd hp heff.phase_ne_copy

/-- XFORM of a READY engine answers a byte (10_state.md R33). -/
theorem Engine.xformBy_of_ready {b : Build} {e : Engine} (h : e.Inv b) (hr : e.ready = true) (c x : Byte) :
    ∃ y, xformBy b e.lut c x = some y :=
  Option.isSome_iff_exists.mp (Engine.xformBy_isSome h hr c x)

/-- A byte step whose XFORM answers folds the byte into C and counts it (42_calculate.md R123). -/
theorem byteStep_of_xformBy {s : State} {k : Nat} {e : Engine} {b c : Byte} (h : xformBy s.build e.lut e.c b = some c) :
    byteStep k e b s = .next (s.setEngine k { e with c := c, idx := e.idx + 1#8 }) := by
  simp [byteStep, h]

/-- The execute step of a COPY from a READY source answers a next state. -/
theorem copyStep_next {s : State} (hs : s.Inv) {k : Nat} {e : Engine} (he : s.engines[k]? = some e)
    (hp : e.phase = .copy) : ∃ t, copyStep k e s = .next t := by
  obtain ⟨-, -, -, -, -, -, hcopy⟩ := id hs
  obtain ⟨source, hsource, hready⟩ := Option.map_eq_some_iff.mp (hcopy e (List.mem_of_getElem? he) hp)
  unfold copyStep
  split
  · next hc =>
    have hfull := (Engine.table_of_ready (State.engine_inv hs hsource) hready).1 hc.1
    simp [hsource, firstUnwritten_eq_none.mpr hfull]
  · exact ⟨_, rfl⟩

/-- The phase in which a step is enabled (10_state.md R34). -/
def EngineStep.phase : EngineStep → Phase
  | .gen => .gen
  | .byte _ => .calculate
  | .complete => .calculate
  | .copy => .copy
  | .twr => .twr

/-- An engine with an enabled step is in that step's phase. -/
theorem State.phase_of_enabledStep {s : State} {e : Engine} {st : EngineStep} (h : s.enabledStep e = some st) :
    e.phase = st.phase := by
  unfold State.enabledStep at h
  split at h
  · next hp => cases h; exact hp
  · cases h
  · next hp =>
    split at h
    · obtain ⟨b, -, rfl⟩ := Option.map_eq_some_iff.mp h
      exact hp
    · split at h
      · cases h; exact hp
      · cases h
  · next hp => cases h; exact hp
  · next hp => cases h; exact hp

/-- No step of an engine faults in a machine that meets the invariant. -/
theorem engineStep_next {s : State} (hs : s.Inv) (k : Nat) : ∃ t, engineStep k s = .next t := by
  cases he : s.engines[k]? with
  | none => exact ⟨s, by simp [engineStep, he]⟩
  | some e =>
    cases hst : s.enabledStep e with
    | none => exact ⟨s, by simp [engineStep, he, hst]⟩
    | some st =>
      rw [engineStep_of_enabled he hst]
      cases st with
      | gen => exact ⟨_, rfl⟩
      | byte b =>
        have hi := State.engine_inv hs he
        have hp : e.phase ≠ .gen := by simp [State.phase_of_enabledStep hst, EngineStep.phase]
        obtain ⟨c, hc⟩ := Engine.xformBy_of_ready hi (Engine.ready_of_not_gen hi hp) e.c b
        exact ⟨_, byteStep_of_xformBy hc⟩
      | complete => exact ⟨_, rfl⟩
      | copy => exact copyStep_next hs he (State.phase_of_enabledStep hst)
      | twr => exact ⟨_, rfl⟩

/-- In a machine that meets the invariant a step of `E[k]` answers a next state, which keeps the invariant and differs
in that engine only (60_exceptions.md R174). -/
theorem engineStep_of_inv {s : State} (hs : s.Inv) (k : Nat) :
    ∃ es, engineStep k s = .next { s with engines := es } ∧ ({ s with engines := es } : State).Inv ∧
      ∀ j, j ≠ k → es[j]? = s.engines[j]? := by
  obtain ⟨t, ht⟩ := engineStep_next hs k
  have hinv := engineStep_keeps_inv hs ht
  rcases engineStep_cases ht with rfl | ⟨e, e', -, -, rfl⟩
  · exact ⟨_, ht, hinv, fun _ _ => rfl⟩
  · exact ⟨_, ht, hinv, fun j hj => State.setEngine_get_other (Ne.symm hj) e'⟩

end Sys2Proof.Machine

namespace Sys2Proof.Machine

/-! ### A calculate between steps of other engines -/

/-- Acceptance keeps the invariant (42_calculate.md R120, R122). -/
theorem Engine.startCalc_inv {b : Build} {e : Engine} (h : e.Inv b) (hp : e.phase ≠ .gen) (c : Byte) {idx endIdx : Byte}
    (hle : idx.toNat ≤ endIdx.toNat) : (e.startCalc b c idx endIdx).Inv b := by
  have hready := Engine.ready_of_not_gen h hp
  obtain ⟨hwf, hbelow, hbase, -, -, -, hstrat, -, -⟩ := h
  refine ⟨hwf, hbelow, hbase, addrBits_lt b e.base, ⟨fun hr => ?_, nofun⟩, nofun, hstrat, fun _ => hle, nofun⟩
  simp [hready] at hr

/-- A machine whose engine has begun a calculate meets the invariant. -/
theorem State.startCalc_inv {s : State} (hs : s.Inv) {k : Nat} {e : Engine} (he : s.engines[k]? = some e)
    (hp : e.phase ≠ .gen) (c : Byte) {idx endIdx : Byte} (hle : idx.toNat ≤ endIdx.toNat) :
    (s.setEngine k (e.startCalc s.build c idx endIdx)).Inv :=
  State.setEngine_inv hs he (Engine.startCalc_inv (State.engine_inv hs he) hp c hle) id nofun

/-- CALC at an idle engine is accepted where XFORM answers for START (42_calculate.md R120). -/
theorem exec_calculate_of_idle {s : State} {e : Engine} (hidle : s.IdlePort e) {start c : Byte} (len : Byte)
    (hc : xformBy s.build e.lut 0x00#8 start = some c) :
    exec (.calculate start len) s = .next (s.setEngine s.port (e.startCalc s.build c 0x00#8 len)) := by
  change s.command (.calculate start len) _ = _
  rw [State.command_accept hidle rfl]
  simp only [hc]

/-- CALC_OFS with `ofs < len` at an idle engine is accepted (42_calculate.md R122). -/
theorem exec_calculateOfs_of_idle {s : State} {e : Engine} (hidle : s.IdlePort e) {ofs len : Byte} (start : Byte)
    (hlt : ofs.toNat < len.toNat) :
    exec (.calculateOfs ofs start len) s = .next (s.setEngine s.port (e.startCalc s.build 0x00#8 ofs len)) := by
  change s.command (.calculateOfs ofs start len) _ = _
  rw [State.command_accept hidle rfl, if_neg (Nat.not_le.mpr hlt)]

/-- Every event is a step of some engine. -/
abbrev OnlyEngines (evs : List Event) : Prop := ∀ ev ∈ evs, ∃ j, ev = .engine j

/-- Steps of other engines leave `E[k]` as it is, and none of them faults (60_exceptions.md R174). -/
theorem runEvents_other_engines {k : Nat} (evs : List Event) {s : State} (hs : s.Inv) (hevs : OnlyEngines evs)
    (hcount : evs.count (.engine k) = 0) :
    ∃ u, runEvents evs s = .next u ∧ u.engines[k]? = s.engines[k]? := by
  induction evs generalizing s with
  | nil => exact ⟨s, rfl, rfl⟩
  | cons ev evs ih =>
    obtain ⟨j, rfl⟩ := hevs ev List.mem_cons_self
    have hjk : Event.engine j ≠ .engine k := fun h => by simp [h] at hcount
    rw [List.count_cons_of_ne hjk] at hcount
    obtain ⟨es, hstep, hinv, hother⟩ := engineStep_of_inv hs j
    obtain ⟨u, hu, huk⟩ := ih hinv (fun ev hev => hevs ev (List.mem_cons_of_mem _ hev)) hcount
    exact ⟨u, (runEvents_cons (ev := .engine j) hstep evs).trans hu, huk.trans (hother k fun h => hjk (h ▸ rfl))⟩

/-- `E[k]` has a calculate running in a machine that meets the invariant, with `n` admitted bytes left to read
(42_calculate.md R123). -/
structure State.Calculating (s : State) (k : Nat) (e : Engine) (n : Nat) : Prop where
  inv : s.Inv
  get : s.engines[k]? = some e
  phase : e.phase = .calculate
  left : e.idx.toNat + n = e.endIdx.toNat
  admits : s.AdmitsBuffer e.abase e.idx.toNat n

/-- A machine that shows the same engine `E[k]`, and differs from `s` in other engines only, has the calculate running
too. -/
theorem State.Calculating.of_other {s : State} {k n : Nat} {e : Engine} (h : s.Calculating k e n) {es : List Engine}
    (hinv : ({ s with engines := es } : State).Inv) (hk : es[k]? = s.engines[k]?) :
    ({ s with engines := es } : State).Calculating k e n :=
  ⟨hinv, hk.trans h.get, h.phase, h.left, h.admits⟩

@[simp] theorem State.buffer_setEngine (s : State) (k : Nat) (e : Engine) (a : Word) (lo n : Nat) :
    (s.setEngine k e).buffer a lo n = s.buffer a lo n := rfl

/-- The bytes left after the first one are admitted where all are. -/
theorem State.AdmitsBuffer.tail {s : State} {a : Word} {lo n : Nat} (h : s.AdmitsBuffer a lo (n + 1)) :
    s.AdmitsBuffer a (lo + 1) n := fun j hj => by
  rw [Nat.add_assoc, Nat.add_comm 1 j]
  exact h (j + 1) (Nat.succ_lt_succ hj)

/-- With a byte left the running calculate folds it, and has one byte less to read. -/
theorem State.Calculating.byte {s : State} {k n : Nat} {e : Engine} (h : s.Calculating k e (n + 1)) :
    ∃ c, xformBy s.build e.lut e.c (s.byteAt (elementAddr s.build e.abase e.idx.toNat)) = some c ∧
      engineStep k s = .next (s.setEngine k { e with c := c, idx := e.idx + 1#8 }) ∧
      (s.setEngine k { e with c := c, idx := e.idx + 1#8 }).Calculating k { e with c := c, idx := e.idx + 1#8 } n := by
  obtain ⟨hs, he, hp, hleft, hadm⟩ := h
  have hlt : e.idx.toNat < e.endIdx.toNat := by omega
  have hidx := Engine.idx_step hlt
  have hi := State.engine_inv hs he
  obtain ⟨c, hc⟩ := Engine.xformBy_of_ready hi (Engine.ready_of_not_gen hi (by simp [hp])) e.c
    (s.byteAt (elementAddr s.build e.abase e.idx.toNat))
  have hstep := (engineStep_of_enabled he (State.enabledStep_byte hp hlt (hadm 0 (Nat.succ_pos n)))).trans
    (byteStep_of_xformBy hc)
  refine ⟨c, hc, hstep, engineStep_keeps_inv hs hstep, State.setEngine_get_self he _, hp, ?_, ?_⟩
  · simp only [hidx]; omega
  · simp only [hidx]; exact hadm.tail

/-- With no byte left the running calculate completes (42_calculate.md R124). -/
theorem State.Calculating.complete {s : State} {k : Nat} {e : Engine} (h : s.Calculating k e 0) :
    engineStep k s = .next (s.setEngine k { e with result := e.c, phase := .idle }) :=
  engineStep_of_enabled h.get (State.enabledStep_complete h.phase (BitVec.eq_of_toNat_eq h.left))

/-- A running calculate gives its RESULT under every interleaving of its steps with steps of other engines
(42_calculate.md R131). -/
theorem runEvents_calculate {k : Nat} (evs : List Event) {s : State} {e : Engine} {n : Nat} (h : s.Calculating k e n)
    (hevs : OnlyEngines evs) (hcount : evs.count (.engine k) = n + 1) :
    ∃ u e', runEvents evs s = .next u ∧ u.engines[k]? = some e' ∧ e'.phase = .idle ∧
      foldBy s.build e.lut e.c (s.buffer e.abase e.idx.toNat n) = some e'.result ∧ e'.lut = e.lut := by
  induction evs generalizing s e n with
  | nil => simp at hcount
  | cons ev evs ih =>
    obtain ⟨j, rfl⟩ := hevs ev List.mem_cons_self
    have hevs' : OnlyEngines evs := fun ev hev => hevs ev (List.mem_cons_of_mem _ hev)
    by_cases hjk : j = k
    · subst hjk
      rw [List.count_cons_self, Nat.add_right_cancel_iff] at hcount
      cases n with
      | zero =>
        have hstep := h.complete
        obtain ⟨u, hu, huk⟩ := runEvents_other_engines evs (engineStep_keeps_inv h.inv hstep) hevs' hcount
        exact ⟨u, _, (runEvents_cons (ev := .engine j) hstep evs).trans hu, huk.trans (State.setEngine_get_self h.get _),
          rfl, rfl, rfl⟩
      | succ n =>
        obtain ⟨c, hc, hstep, hnext⟩ := h.byte
        obtain ⟨u, e', hu, hue, hidle, hfold, hlut⟩ := ih hnext hevs' hcount
        refine ⟨u, e', (runEvents_cons (ev := .engine j) hstep evs).trans hu, hue, hidle, ?_, hlut⟩
        have hidx := Engine.idx_step (e := e) (by have := h.left; omega)
        rw [State.buffer_succ, foldBy_cons, hc]
        simpa [hidx] using hfold
    · rw [List.count_cons_of_ne fun heq => hjk (Event.engine.inj heq)] at hcount
      obtain ⟨es, hstep, hinv, hother⟩ := engineStep_of_inv h.inv j
      obtain ⟨u, e', hu, hrest⟩ := ih (h.of_other hinv (hother k (Ne.symm hjk))) hevs' hcount
      exact ⟨u, e', (runEvents_cons (ev := .engine j) hstep evs).trans hu, hrest⟩

/-- An idle engine that begins a calculate from the byte `idx` has the bytes up to END to read, at BASE. -/
theorem State.startCalc_calculating {s : State} (hs : s.Inv) {k : Nat} {e : Engine} (he : s.engines[k]? = some e)
    (hp : e.phase = .idle) (c : Byte) {idx endIdx : Byte} {n : Nat} (hn : idx.toNat + n = endIdx.toNat)
    (ha : s.AdmitsBuffer e.base idx.toNat n) :
    (s.setEngine k (e.startCalc s.build c idx endIdx)).Calculating k (e.startCalc s.build c idx endIdx) n where
  inv := State.startCalc_inv hs he (by simp [hp]) c (by omega)
  get := State.setEngine_get_self he _
  phase := rfl
  left := hn
  admits := by
    obtain ⟨-, -, hbase, -⟩ := State.engine_inv hs he
    rw [Engine.startCalc_abase, addrBits_eq_self hbase]
    exact ha

/-- An accepted calculate, from C and the byte `idx` on, gives the fold of its bytes at BASE under every interleaving with
steps of other engines. -/
theorem runEvents_startCalc {s : State} (hs : s.Inv) {e : Engine} (hidle : s.IdlePort e) (c : Byte) {idx endIdx : Byte}
    {n : Nat} (hn : idx.toNat + n = endIdx.toNat) (ha : s.AdmitsBuffer e.base idx.toNat n) {evs : List Event}
    (hevs : OnlyEngines evs) (hcount : evs.count (.engine s.port) = n + 1) :
    ∃ u e', runEvents evs (s.setEngine s.port (e.startCalc s.build c idx endIdx)) = .next u ∧
      u.engines[s.port]? = some e' ∧ e'.phase = .idle ∧
      foldBy s.build e.lut c (s.buffer e.base idx.toNat n) = some e'.result ∧ e'.lut = e.lut := by
  obtain ⟨he, hp⟩ := hidle
  obtain ⟨-, -, hbase, -⟩ := State.engine_inv hs he
  have h := runEvents_calculate evs (State.startCalc_calculating hs he hp c hn ha) hevs hcount
  rwa [Engine.startCalc_abase, addrBits_eq_self hbase] at h

/-- Settles O56: the acceptance leaves a running calculate, whose RESULT follows by induction on the events. -/
theorem interleavedCalcResult : Obligations.InterleavedCalcResult := by
  intro s t e evs hs hidle hevs
  have hi := State.engine_inv hs hidle.1
  have hready := Engine.ready_of_not_gen hi (by simp [hidle.2])
  refine ⟨fun start len ha hexec hcount => ?_, fun ofs start len hlt ha hexec hcount => ?_⟩
  · obtain ⟨c, hc⟩ := Engine.xformBy_of_ready hi hready 0x00#8 start
    rw [exec_calculate_of_idle hidle len hc] at hexec
    cases hexec
    rw [hc]
    exact runEvents_startCalc hs hidle c (Nat.zero_add _) ha hevs hcount
  · rw [exec_calculateOfs_of_idle hidle start hlt] at hexec
    cases hexec
    exact runEvents_startCalc hs hidle 0x00#8 (by omega) ha hevs hcount

end Sys2Proof.Machine

namespace Sys2Proof.Machine

/-! ### What a host step and an event can do -/

@[simp] theorem Engine.writeReg_toStatus (b : Build) (e : Engine) (w : Word) :
    e.writeReg b 1#3 w = e.clearStatus w := rfl

@[simp] theorem Engine.writeReg_toBase (b : Build) (e : Engine) (w : Word) :
    e.writeReg b 2#3 w = { e with base := addrBits b w } := rfl

/-- A register write other than those to STATUS and BASE is ignored (10_state.md R28 to R30). -/
theorem Engine.writeReg_ignored (b : Build) (e : Engine) {r : BitVec 3} (w : Word) (hstatus : r ≠ 1#3)
    (hbase : r ≠ 2#3) : e.writeReg b r w = e := by
  have h₁ : r.toNat ≠ 1 := fun h => hstatus (BitVec.eq_of_toNat_eq h)
  have h₂ : r.toNat ≠ 2 := fun h => hbase (BitVec.eq_of_toNat_eq h)
  unfold Engine.writeReg
  split
  · next h => exact absurd h h₁
  · next h => exact absurd h h₂
  · rfl

/-- A register write clears the sticky bits, stores BASE, or is ignored (10_state.md R22). -/
theorem Engine.writeReg_cases (b : Build) (e : Engine) (r : BitVec 3) (w : Word) :
    (r = 1#3 ∧ e.writeReg b r w = e.clearStatus w) ∨ e.writeReg b r w = { e with base := addrBits b w } ∨
    e.writeReg b r w = e := by
  by_cases hstatus : r = 1#3
  · subst hstatus; exact .inl ⟨rfl, e.writeReg_toStatus b w⟩
  · by_cases hbase : r = 2#3
    · subst hbase; exact .inr (.inl (e.writeReg_toBase b w))
    · exact .inr (.inr (e.writeReg_ignored b w hstatus hbase))

section WriteReg

/-! A register write reaches BASE and the sticky bits only (10_state.md R22). -/

variable (b : Build) (e : Engine) (r : BitVec 3) (w : Word)

@[simp] theorem Engine.writeReg_ready : (e.writeReg b r w).ready = e.ready := by
  unfold Engine.writeReg; split <;> rfl

@[simp] theorem Engine.writeReg_result : (e.writeReg b r w).result = e.result := by
  unfold Engine.writeReg; split <;> rfl

@[simp] theorem Engine.writeReg_lut : (e.writeReg b r w).lut = e.lut := by
  unfold Engine.writeReg; split <;> rfl

@[simp] theorem Engine.writeReg_phase : (e.writeReg b r w).phase = e.phase := by
  unfold Engine.writeReg; split <;> rfl

@[simp] theorem Engine.writeReg_lsrc : (e.writeReg b r w).lsrc = e.lsrc := by
  unfold Engine.writeReg; split <;> rfl

end WriteReg

/-- What the host's step can turn the machine into. -/
inductive HostEffect (s : State) : State → Prop
  | record (ops : List HostOp) (vs : List Word) : HostEffect s { s with host := ops, reads := vs }
  | data {a : Word} {b : Byte} {rest : List HostOp} : s.host = .dataWrite a b :: rest →
      a.toNat < 2 ^ s.build.addrW → HostEffect s { s with host := rest, mem := Memory.write s.mem a.toNat b }
  | register {k : Nat} {r : BitVec 3} {w : Word} {rest : List HostOp} {e : Engine} :
      s.host = .regWrite k r w :: rest → r ≠ 0#3 → s.engines[k]? = some e →
      HostEffect s (({ s with host := rest } : State).setEngine k (e.writeReg s.build r w))
  | command {k : Nat} {rest : List HostOp} {e e' : Engine} : s.engines[k]? = some e →
      CommandEffect { s with host := rest, port := k } e e' →
      HostEffect s (({ s with host := rest, port := k } : State).setEngine k e')

/-- A host step that answers a next state does one of these. -/
theorem hostStep_effect {s t : State} (h : hostStep s = .next t) : HostEffect s t := by
  unfold hostStep at h
  split at h
  · cases h; exact .record s.host s.reads
  · next op rest hop =>
    rcases hostOp_cases h with ⟨vs, rfl⟩ | ⟨a, b, rfl, ha, rfl⟩ | ⟨k, r, m, v, rfl, rfl⟩ |
      ⟨k, r, w, e, rfl, he, hr, rfl⟩ | ⟨k, w, e, rfl, he, hc⟩
    · exact .record rest vs
    · exact .data hop ha
    · exact .record _ s.reads
    · exact .register hop hr he
    · obtain ⟨e', hcmd, rfl⟩ := cmdWrite_cases he hc
      exact .command he hcmd

/-- What one event can turn the engine `E[k]` into. -/
inductive EventEffect (ev : Event) (s : State) (k : Nat) (e : Engine) : Engine → Prop
  | stays : EventEffect ev s k e e
  | register {r : BitVec 3} {w : Word} {rest : List HostOp} : ev = .host → s.host = .regWrite k r w :: rest →
      r ≠ 0#3 → EventEffect ev s k e (e.writeReg s.build r w)
  | command {rest : List HostOp} {e' : Engine} : ev = .host → CommandEffect { s with host := rest, port := k } e e' →
      EventEffect ev s k e e'
  | step {e' : Engine} : ev = .engine k → EngineEffect s k e e' → EventEffect ev s k e e'
  | reset : ev = .reset → EventEffect ev s k e (Engine.reset s.build)

/-- Where `E[j]` was replaced, `E[k]` is as it was or is the engine put in its place. -/
theorem State.setEngine_get_cases {s : State} {j k : Nat} {x x' e e' : Engine} (hx : s.engines[j]? = some x)
    (he : s.engines[k]? = some e) (he' : (s.setEngine j x').engines[k]? = some e') :
    e' = e ∨ j = k ∧ x = e ∧ x' = e' := by
  by_cases hjk : j = k
  · subst hjk
    rw [State.setEngine_get_self hx] at he'
    exact .inr ⟨rfl, Option.some.inj (hx.symm.trans he), Option.some.inj he'⟩
  · rw [State.setEngine_get_other hjk, he] at he'
    exact .inl (Option.some.inj he').symm

/-- An event turns each engine into one of these. -/
theorem runEvent_effect {ev : Event} {s t : State} {k : Nat} {e e' : Engine} (h : runEvent ev s = .next t)
    (he : s.engines[k]? = some e) (he' : t.engines[k]? = some e') : EventEffect ev s k e e' := by
  have same (hsame : t.engines = s.engines) : EventEffect ev s k e e' := by
    rw [hsame, he] at he'
    cases he'
    exact .stays
  cases ev with
  | host =>
    cases hostStep_effect h with
    | record => exact same rfl
    | data => exact same rfl
    | register hop hr hx =>
      rcases State.setEngine_get_cases (s := { s with host := _ }) hx he he' with rfl | ⟨rfl, rfl, rfl⟩
      · exact .stays
      · exact .register rfl hop hr
    | command hx hcmd =>
      rcases State.setEngine_get_cases (s := { s with host := _, port := _ }) hx he he' with rfl | ⟨rfl, rfl, rfl⟩
      · exact .stays
      · exact .command rfl hcmd
  | engine j =>
    rcases engineStep_cases h with rfl | ⟨x, x', hx, heff, rfl⟩
    · exact same rfl
    · rcases State.setEngine_get_cases hx he he' with rfl | ⟨rfl, rfl, rfl⟩
      · exact .stays
      · exact .step rfl heff
  | reset =>
    cases h
    simp only [State.applyReset_engines, List.getElem?_map, he, Option.map_some, Option.some.injEq] at he'
    subst he'
    exact .reset rfl

/-! ### The invariant of the machine -/

/-- A register write keeps the engines' invariant (10_state.md R27). -/
theorem Engine.writeReg_inv {b : Build} {e : Engine} (h : e.Inv b) (r : BitVec 3) (w : Word) :
    (e.writeReg b r w).Inv b := by
  rcases e.writeReg_cases b r w with ⟨-, hw⟩ | hw | hw
  · rw [hw]; exact h
  · rw [hw]
    obtain ⟨hwf, hbelow, -, hrest⟩ := h
    exact ⟨hwf, hbelow, addrBits_lt b w, hrest⟩
  · rw [hw]; exact h

/-- A command keeps READY, RESULT and the table, and no engine generates after it that did not before. -/
theorem CommandEffect.frame {s : State} {e e' : Engine} (h : CommandEffect s e e') :
    e'.ready = e.ready ∧ e'.result = e.result ∧ e'.lut = e.lut ∧ (e'.phase = .gen → e.phase = .gen) := by
  cases h with
  | overrun => exact ⟨rfl, rfl, rfl, id⟩
  | illegal => exact ⟨rfl, rfl, rfl, id⟩
  | calculate => exact ⟨rfl, rfl, rfl, nofun⟩
  | calculateOfs => exact ⟨rfl, rfl, rfl, nofun⟩
  | copy => exact ⟨rfl, rfl, rfl, nofun⟩
  | testWr => exact ⟨rfl, rfl, rfl, nofun⟩

/-- A command keeps the engines' invariant. -/
theorem CommandEffect.inv {s : State} {e e' : Engine} (hi : e.Inv s.build) (h : CommandEffect s e e') :
    e'.Inv s.build := by
  have ready_of_idle (hp : e.phase = .idle) : e.ready = true := Engine.ready_of_not_gen hi (by simp [hp])
  have gen_of_idle (hp : e.phase = .idle) : e.phase ≠ .gen := by simp [hp]
  cases h with
  | overrun => exact hi
  | illegal => exact hi
  | calculate hp => exact Engine.startCalc_inv hi (gen_of_idle hp) _ (Nat.zero_le _)
  | calculateOfs hp hlt => exact Engine.startCalc_inv hi (gen_of_idle hp) _ hlt.le
  | copy hp =>
    have hready := ready_of_idle hp
    obtain ⟨hwf, hbelow, hbase, habase, -, -, hstrat, -, -⟩ := hi
    exact ⟨hwf, hbelow, hbase, habase, by simp [hready], nofun, hstrat, nofun, nofun⟩
  | testWr hp hhook hspeed =>
    have hready := ready_of_idle hp
    obtain ⟨hwf, hbelow, hbase, habase, -, -, hstrat, -, -⟩ := hi
    exact ⟨hwf, hbelow, hbase, habase, by simp [hready], nofun, hstrat, nofun, fun _ => ⟨hhook, hspeed⟩⟩

/-- A command leaves a pending COPY its READY source, and accepts a COPY from a READY source only (43_instance_ops.md
R141). -/
theorem CommandEffect.copySourceReady {s : State} {e e' : Engine} (hc : s.CopySourceReady e)
    (h : CommandEffect s e e') : s.CopySourceReady e' := by
  cases h with
  | overrun => exact hc
  | illegal => exact hc
  | calculate => nofun
  | calculateOfs => nofun
  | copy _ _ hsource hready => exact fun _ => by simp [hsource, hready]
  | testWr => nofun

/-- The invariant speaks of the build, the engines, data memory and the port only. -/
theorem State.Inv.congr {s t : State} (h : s.Inv) (hb : t.build = s.build) (he : t.engines = s.engines)
    (hm : t.mem = s.mem) (hp : t.port < s.build.nInst) : t.Inv := by
  obtain ⟨hok, hlen, -, hrest⟩ := h
  simp only [State.Inv, State.CopySourceReady, hb, he, hm]
  exact ⟨hok, hlen, hp, hrest⟩

/-- The pending COPY of an engine has a READY source. -/
theorem State.copySourceReady_of_get {s : State} (h : s.Inv) {k : Nat} {e : Engine} (he : s.engines[k]? = some e) :
    s.CopySourceReady e := by
  obtain ⟨-, -, -, -, -, -, hcopy⟩ := h
  exact hcopy e (List.mem_of_getElem? he)

/-- An engine that exists has its index below `N_INST`. -/
theorem State.lt_nInst_of_get {s : State} (h : s.Inv) {k : Nat} {e : Engine} (he : s.engines[k]? = some e) :
    k < s.build.nInst := by
  obtain ⟨-, hlen, -⟩ := h
  exact hlen ▸ (List.getElem?_eq_some_iff.mp he).1

/-- The host's step keeps the machine's invariant. -/
theorem HostEffect.inv {s t : State} (hs : s.Inv) (h : HostEffect s t) : t.Inv := by
  obtain ⟨hok, hlen, hport, hwf, hbelow, hengines, hcopy⟩ := id hs
  cases h with
  | record => exact hs.congr rfl rfl rfl hport
  | data _ ha => exact ⟨hok, hlen, hport, Memory.wf_write hwf _ _, Memory.below_write hbelow ha _, hengines, hcopy⟩
  | @register k r w rest e _ _ he =>
    have hs' : ({ s with host := rest } : State).Inv := hs.congr rfl rfl rfl hport
    refine State.setEngine_inv hs' he (Engine.writeReg_inv (State.engine_inv hs he) r w) (by simp) ?_
    rw [State.CopySourceReady, Engine.writeReg_phase, Engine.writeReg_lsrc]
    exact State.copySourceReady_of_get hs he
  | @command k rest e e' he hcmd =>
    obtain ⟨hready, -⟩ := hcmd.frame
    have hs' : ({ s with host := rest, port := k } : State).Inv := hs.congr rfl rfl rfl (State.lt_nInst_of_get hs he)
    exact State.setEngine_inv hs' he (hcmd.inv (State.engine_inv hs he)) (hready ▸ id)
      (hcmd.copySourceReady (State.copySourceReady_of_get hs' he))

/-- A reset engine waits for no COPY. -/
theorem Engine.reset_phase_ne_copy (b : Build) : (Engine.reset b).phase ≠ .copy := by
  cases h : b.strategy <;> simp [h]

/-- Reset keeps the machine's invariant. -/
theorem State.applyReset_inv {s : State} (h : s.Inv) : s.applyReset.Inv := by
  obtain ⟨hok, hlen, hport, hwf, hbelow, -, -⟩ := h
  have is_reset : ∀ e ∈ s.applyReset.engines, e = Engine.reset s.build := fun e he => by
    obtain ⟨x, -, rfl⟩ := List.mem_map.mp he
    rfl
  refine ⟨hok, by simpa using hlen, hport, hwf, hbelow, fun e he => ?_, fun e he => ?_⟩
  · rw [is_reset e he]; exact Engine.reset_inv s.build
  · rw [is_reset e he]; exact fun hp => absurd hp (Engine.reset_phase_ne_copy s.build)

/-- Every event keeps the machine's invariant. -/
theorem runEvent_keeps_inv {ev : Event} {s t : State} (hs : s.Inv) (h : runEvent ev s = .next t) : t.Inv := by
  cases ev with
  | host => exact (hostStep_effect h).inv hs
  | engine k => exact engineStep_keeps_inv hs h
  | reset => cases h; exact State.applyReset_inv hs

/-- Settles O37: a step is one event or none, and every event keeps the invariant. -/
theorem stepKeepsInv : Obligations.StepKeepsInv := by
  intro s t hs h
  rcases step_cases h with rfl | ⟨ev, sched, n, hev⟩
  · exact hs
  · exact runEvent_keeps_inv (s := { s with schedule := sched, choices := n }) hs hev

/-- Settles O36: every engine has its reset values. -/
theorem resetMeetsInv : Obligations.ResetMeetsInv := by
  intro b hok
  have hport : 0 < b.nInst := hok.1
  refine ⟨hok, List.length_replicate, hport, rfl, nofun, fun e he => ?_, fun e he => ?_⟩
  · rw [List.eq_of_mem_replicate he]; exact Engine.reset_inv b
  · rw [List.eq_of_mem_replicate he]; exact fun hp => absurd hp (Engine.reset_phase_ne_copy b)

end Sys2Proof.Machine

namespace Sys2Proof.Machine

/-! ### What events leave of READY, RESULT, the sticky bits and the tables -/

/-! A generation step reaches the table, GIDX, READY and PHASE only (41_lut_gen.md R111). -/

@[simp] theorem Engine.generate_illegal (e : Engine) : e.generate.illegal = e.illegal := by
  simp only [Engine.generate]; split <;> rfl

@[simp] theorem Engine.generate_overrun (e : Engine) : e.generate.overrun = e.overrun := by
  simp only [Engine.generate]; split <;> rfl

@[simp] theorem Engine.generate_result (e : Engine) : e.generate.result = e.result := by
  simp only [Engine.generate]; split <;> rfl

/-- A generation step writes `T(i)` at one entry `i` of the table. -/
theorem Engine.generate_lut (e : Engine) :
    e.generate.lut = Memory.write e.lut (e.gidx.setWidth 8).toNat (polyT (e.gidx.setWidth 8)) := by
  simp only [Engine.generate]
  split <;> rfl

/-- No step of an engine changes its sticky bits. -/
theorem EngineEffect.sticky {s : State} {k : Nat} {e e' : Engine} (h : EngineEffect s k e e') :
    e'.illegal = e.illegal ∧ e'.overrun = e.overrun := by
  cases h with
  | gen => exact ⟨e.generate_illegal, e.generate_overrun⟩
  | byte => exact ⟨rfl, rfl⟩
  | complete => exact ⟨rfl, rfl⟩
  | copyNone => exact ⟨rfl, rfl⟩
  | copy => exact ⟨rfl, rfl⟩
  | twr => exact ⟨rfl, rfl⟩

/-- Of an engine's steps only the completion step changes RESULT, to C (42_calculate.md R124). -/
theorem EngineEffect.result {s : State} {k : Nat} {e e' : Engine} (h : EngineEffect s k e e') :
    e'.result = e.result ∨ e.phase = .calculate ∧ e.idx = e.endIdx ∧ e'.result = e.c ∧ e'.phase = .idle := by
  cases h with
  | gen => exact .inl e.generate_result
  | byte => exact .inl rfl
  | complete hp heq => exact .inr ⟨hp, heq, rfl, rfl⟩
  | copyNone => exact .inl rfl
  | copy => exact .inl rfl
  | twr => exact .inl rfl

/-- Of an engine's steps only those of GEN, COPY and TWR change its table (10_state.md R32). -/
theorem EngineEffect.lut {s : State} {k : Nat} {e e' : Engine} (h : EngineEffect s k e e') :
    e'.lut = e.lut ∨ e.phase = .gen ∨ e.phase = .copy ∨ e.phase = .twr := by
  cases h with
  | gen hp => exact .inr (.inl hp)
  | byte => exact .inl rfl
  | complete => exact .inl rfl
  | copyNone => exact .inl rfl
  | copy hp => exact .inr (.inr (.inl hp))
  | twr hp => exact .inr (.inr (.inr hp))

/-- A command sets sticky bits and clears none. -/
theorem CommandEffect.sticky {s : State} {e e' : Engine} (h : CommandEffect s e e') :
    (e.illegal = true → e'.illegal = true) ∧ (e.overrun = true → e'.overrun = true) := by
  cases h with
  | overrun => exact ⟨id, fun _ => rfl⟩
  | illegal => exact ⟨fun _ => rfl, id⟩
  | calculate => exact ⟨id, id⟩
  | calculateOfs => exact ⟨id, id⟩
  | copy => exact ⟨id, id⟩
  | testWr => exact ⟨id, id⟩

/-- Settles O40: no host access and no step of an engine takes READY. -/
theorem readyStays : Obligations.ReadyStays := by
  intro ev s t k e e' h he he' hr hr'
  cases runEvent_effect h he he' with
  | stays => simp [hr] at hr'
  | register => simp [hr] at hr'
  | command _ hcmd =>
    obtain ⟨hready, -⟩ := hcmd.frame
    simp [hready, hr] at hr'
  | step _ heff => simp [heff.ready hr] at hr'
  | reset hev => exact hev

/-- A status bit that commands only set, that the engine's steps keep, and that the host clears by bit `i` of a STATUS
write (10_state.md R24). -/
structure IsStickyBit (bit : Engine → Bool) (i : Nat) : Prop where
  clear : ∀ e w, bit (e.clearStatus w) = (bit e && !w.getLsbD i)
  base : ∀ (e : Engine) (v : Word), bit { e with base := v } = bit e
  command : ∀ {s : State} {e e' : Engine}, CommandEffect s e e' → bit e = true → bit e' = true
  step : ∀ {s : State} {k : Nat} {e e' : Engine}, EngineEffect s k e e' → bit e' = bit e

theorem illegal_isStickyBit : IsStickyBit Engine.illegal 2 where
  clear := Engine.clearStatus_illegal
  base _ _ := rfl
  command h := h.sticky.1
  step h := h.sticky.1

theorem overrun_isStickyBit : IsStickyBit Engine.overrun 3 where
  clear := Engine.clearStatus_overrun
  base _ _ := rfl
  command h := h.sticky.2
  step h := h.sticky.2

/-- A sticky bit falls by a reset or by its own bit of a STATUS write. -/
theorem IsStickyBit.cleared {bit : Engine → Bool} {i : Nat} (hbit : IsStickyBit bit i) {ev : Event} {s : State}
    {k : Nat} {e e' : Engine} (h : EventEffect ev s k e e') (hset : bit e = true) (hclear : bit e' = false) :
    ev = .reset ∨ ∃ w rest, ev = .host ∧ s.host = .regWrite k 1#3 w :: rest ∧ w.getLsbD i = true := by
  cases h with
  | stays => simp [hset] at hclear
  | @register r w rest hev hop =>
    rcases e.writeReg_cases s.build r w with ⟨rfl, hw⟩ | hw | hw
    · rw [hw, hbit.clear, hset] at hclear
      exact .inr ⟨w, rest, hev, hop, by simpa using hclear⟩
    · simp [hw, hbit.base, hset] at hclear
    · simp [hw, hset] at hclear
  | command _ hcmd => simp [hbit.command hcmd hset] at hclear
  | step _ heff => simp [hbit.step heff, hset] at hclear
  | reset hev => exact .inl hev

/-- Settles O41: both bits are sticky. -/
theorem statusErrorsAreSticky : Obligations.StatusErrorsAreSticky := by
  intro ev s t k e e' h he he'
  have heff := runEvent_effect h he he'
  exact ⟨illegal_isStickyBit.cleared heff, overrun_isStickyBit.cleared heff⟩

/-- Settles O42: host accesses keep RESULT, and of the engine's steps only the completion step changes it. -/
theorem onlyCompletionWritesResult : Obligations.OnlyCompletionWritesResult := by
  intro ev s t k e e' h he he' hne
  cases runEvent_effect h he he' with
  | stays => exact absurd rfl hne
  | register => exact absurd (e.writeReg_result ..) hne
  | command _ hcmd =>
    obtain ⟨-, hresult, -⟩ := hcmd.frame
    exact absurd hresult hne
  | step hev heff => exact .inr ⟨hev, heff.result.resolve_left hne⟩
  | reset hev => exact .inl hev

/-- Settles O43: host accesses keep the table, and of the engine's steps only three change it. -/
theorem onlyThreeStepsWriteTable : Obligations.OnlyThreeStepsWriteTable := by
  intro ev s t k e e' h he he' hne
  cases runEvent_effect h he he' with
  | stays => exact absurd rfl hne
  | register => exact absurd (e.writeReg_lut ..) hne
  | command _ hcmd =>
    obtain ⟨-, -, hlut, -⟩ := hcmd.frame
    exact absurd hlut hne
  | step hev heff => exact .inr ⟨hev, heff.lut.resolve_left hne⟩
  | reset hev => exact .inl hev

/-- Settles O44: a host step reaches only BASE and the sticky bits of a busy engine. -/
theorem runningCalculateKeepsOperands : Obligations.RunningCalculateKeepsOperands := by
  intro s t k e e' h he he' hp
  obtain ⟨x, hx, hsame⟩ := hostStep_busy h he (by simp [hp])
  cases hx.symm.trans he'
  rw [← hsame] at hp ⊢
  exact ⟨rfl, rfl, rfl, rfl, hp⟩

/-! ### Generated tables -/

/-- A write of `T(i)` at the entry `i` keeps a table's entries generated. -/
theorem TableGenerated.write {lut : Memory} (h : TableGenerated lut) (i : Byte) :
    TableGenerated (Memory.write lut i.toNat (polyT i)) := by
  intro c hc
  rcases Memory.mem_write hc with rfl | hc
  · simp
  · exact h c hc

/-- An event that is no TEST_WR's execute step keeps the written entries generated, those of a COPY's source given
(10_state.md R32). -/
theorem EventEffect.tableGenerated {ev : Event} {s : State} {k : Nat} {e e' : Engine} (h : EventEffect ev s k e e')
    (hg : TableGenerated e.lut) (hsource : e.phase = .copy → s.TablesGenerated) (htwr : e.phase ≠ .twr) :
    TableGenerated e'.lut := by
  cases h with
  | stays => exact hg
  | register => rw [Engine.writeReg_lut]; exact hg
  | command _ hcmd =>
    obtain ⟨-, -, hlut, -⟩ := hcmd.frame
    rw [hlut]; exact hg
  | step _ heff =>
    cases heff with
    | gen => rw [Engine.generate_lut]; exact hg.write _
    | byte => exact hg
    | complete => exact hg
    | copyNone => exact hg
    | @copy source hp _ _ hs => exact hsource hp source (List.mem_of_getElem? hs)
    | twr hp => exact absurd hp htwr
  | reset => exact nofun

/-- An engine generates after a step of its own only where it generated before. -/
theorem EngineEffect.gen_of_gen {s : State} {k : Nat} {e e' : Engine} (h : EngineEffect s k e e')
    (hp : e'.phase = .gen) : e.phase = .gen := by
  cases h with
  | gen h => exact h
  | byte => exact hp
  | complete => cases hp
  | copyNone => cases hp
  | copy => cases hp
  | twr => cases hp

/-- An engine generates after an event only where it generated before or was reset. -/
theorem EventEffect.gen_of_gen {ev : Event} {s : State} {k : Nat} {e e' : Engine} (h : EventEffect ev s k e e')
    (hp : e'.phase = .gen) : e.phase = .gen ∨ e' = Engine.reset s.build := by
  cases h with
  | stays => exact .inl hp
  | register => exact .inl (by simpa using hp)
  | command _ hcmd =>
    obtain ⟨-, -, -, hgen⟩ := hcmd.frame
    exact .inl (hgen hp)
  | step _ heff => exact .inl (heff.gen_of_gen hp)
  | reset => exact .inr rfl

/-- A step of the machine turns each engine into what an event turns it into, and there is no engine that was not there
before. -/
theorem step_effect {s t : State} (h : step s = .next t) {e' : Engine} (he' : e' ∈ t.engines) :
    ∃ ev sched n k, ∃ e ∈ s.engines, EventEffect ev { s with schedule := sched, choices := n } k e e' := by
  obtain ⟨k, hk⟩ := List.mem_iff_getElem?.mp he'
  rcases step_cases h with rfl | ⟨ev, sched, n, hev⟩
  · exact ⟨.host, t.schedule, t.choices, k, e', he', .stays⟩
  · have hlen : t.engines.length = s.engines.length :=
      runEvent_engines_length (s := { s with schedule := sched, choices := n }) hev
    have hlt : k < s.engines.length := hlen ▸ (List.getElem?_eq_some_iff.mp hk).1
    exact ⟨ev, sched, n, k, s.engines[k], List.getElem_mem hlt,
      runEvent_effect hev (List.getElem?_eq_getElem hlt) hk⟩

/-- Settles O45: without the hook no engine is in TWR, and a table that is being generated was so before or is empty. -/
theorem tablesStayGenerated : Obligations.TablesStayGenerated := by
  intro s t hs h
  have ht : t.Inv := stepKeepsInv s t hs h
  refine ⟨fun hhook hg e' he' => ?_, fun hg e' he' hp' => ?_⟩
  · obtain ⟨ev, sched, n, k, e, he, heff⟩ := step_effect h he'
    obtain ⟨-, -, -, -, -, hengines, -⟩ := hs
    obtain ⟨-, -, -, -, -, -, -, -, htwr⟩ := hengines e he
    exact heff.tableGenerated (hg e he) (fun _ => hg) fun hp => by simp [(htwr hp).1] at hhook
  · obtain ⟨-, -, -, -, -, hengines, -⟩ := ht
    obtain ⟨-, -, -, -, -, hgen, -⟩ := hengines e' he'
    refine ⟨hgen hp', ?_⟩
    obtain ⟨ev, sched, n, k, e, he, heff⟩ := step_effect h he'
    rcases heff.gen_of_gen hp' with hp | rfl
    · exact heff.tableGenerated (hg e he hp) (by simp [hp]) (by simp [hp])
    · exact nofun

end Sys2Proof.Machine

namespace Sys2Proof.Machine

/-! ### Reads of unwritten table entries -/

/-- A receipt of a command faults where the port names no engine, or as the acceptance at an idle engine does. -/
theorem State.command_fault {s : State} {i : Instr} {accept : Engine → Result} {f : Fault}
    (h : s.command i accept = .fault f) :
    f = .noSuchInstance s.port ∨ ∃ e, s.IdlePort e ∧ accept e = .fault f := by
  rcases State.command_cases h with ⟨-, hr⟩ | ⟨e, he, ⟨-, hr⟩ | ⟨hp, -, hr⟩ | ⟨-, -, hr⟩⟩
  · cases hr; exact .inl rfl
  · cases hr
  · exact .inr ⟨e, ⟨he, hp⟩, hr.symm⟩
  · cases hr

/-- No command reads an unwritten table entry in a machine that meets the invariant. -/
theorem exec_ne_unwrittenLutRead {s : State} (hs : s.Inv) (i : Instr) (k : Nat) (j : Byte) :
    exec i s ≠ .fault (.unwrittenLutRead k j) := by
  intro h
  cases i with
  | calculate start len =>
    rcases State.command_fault (show s.command _ _ = _ from h) with hf | ⟨e, hidle, ha⟩
    · cases hf
    · have hi := State.engine_inv hs hidle.1
      obtain ⟨c, hc⟩ := Engine.xformBy_of_ready hi (Engine.ready_of_not_gen hi (by simp [hidle.2])) 0x00#8 start
      simp [hc] at ha
  | calculateOfs ofs start len =>
    rcases State.command_fault (show s.command _ _ = _ from h) with hf | ⟨e, -, ha⟩
    · cases hf
    · split at ha <;> cases ha
  | copy src =>
    rcases State.command_fault (show s.command _ _ = _ from h) with hf | ⟨e, -, ha⟩
    · cases hf
    · split at ha
      · cases ha
      · split at ha <;> cases ha
  | testWr tidx tval =>
    rcases State.command_fault (show s.command _ _ = _ from h) with hf | ⟨e, -, ha⟩
    · cases hf
    · cases ha

/-- A CMD write that faults does so by the command it decodes to. -/
theorem cmdWrite_fault {k : Nat} {e : Engine} {w : Word} {s : State} {f : Fault} (h : cmdWrite k e w s = .fault f) :
    ∃ i, exec i { s with port := k } = .fault f := by
  simp only [cmdWrite] at h
  split at h
  · cases h
  · split at h
    · cases h
    · next i _ => exact ⟨i, h⟩

/-- A host transaction faults where its engine or its address does not exist, or by the command it writes to CMD. -/
theorem hostOp_fault {op : HostOp} {s : State} {f : Fault} (h : hostOp op s = .fault f) :
    (∃ k, f = .noSuchInstance k) ∨ (∃ a, f = .noSuchAddress a) ∨
    ∃ k e i, s.engines[k]? = some e ∧ exec i { s with port := k } = .fault f := by
  cases op with
  | regRead k r =>
    simp only [hostOp] at h
    split at h
    · cases h; exact .inl ⟨k, rfl⟩
    · cases h
  | regWrite k r w =>
    simp only [hostOp] at h
    split at h
    · cases h; exact .inl ⟨k, rfl⟩
    · next e he =>
      split at h
      · obtain ⟨i, hi⟩ := cmdWrite_fault h
        exact .inr (.inr ⟨k, e, i, he, hi⟩)
      · cases h
  | dataWrite a b =>
    simp only [hostOp] at h
    split at h
    · cases h
    · cases h; exact .inr (.inl ⟨a, rfl⟩)
  | dataRead a =>
    simp only [hostOp] at h
    split at h
    · cases h
    · cases h; exact .inr (.inl ⟨a, rfl⟩)
  | poll k r m v =>
    simp only [hostOp] at h
    split at h
    · cases h; exact .inl ⟨k, rfl⟩
    · split at h <;> cases h

/-- No host step reads an unwritten table entry in a machine that meets the invariant. -/
theorem hostStep_ne_unwrittenLutRead {s : State} (hs : s.Inv) (k : Nat) (j : Byte) :
    hostStep s ≠ .fault (.unwrittenLutRead k j) := by
  intro h
  unfold hostStep at h
  split at h
  · cases h
  · next op rest _ =>
    rcases hostOp_fault h with ⟨l, hf⟩ | ⟨a, hf⟩ | ⟨l, e, i, he, hexec⟩
    · cases hf
    · cases hf
    · have hport : ({ s with host := rest, port := l } : State).Inv :=
        hs.congr rfl rfl rfl (State.lt_nInst_of_get hs he)
      exact exec_ne_unwrittenLutRead hport i k j hexec

/-- No event reads an unwritten table entry in a machine that meets the invariant. -/
theorem runEvent_ne_unwrittenLutRead {s : State} (hs : s.Inv) (ev : Event) (k : Nat) (j : Byte) :
    runEvent ev s ≠ .fault (.unwrittenLutRead k j) := by
  cases ev with
  | host => exact hostStep_ne_unwrittenLutRead hs k j
  | engine l =>
    obtain ⟨t, ht⟩ := engineStep_next hs l
    simp [runEvent, ht]
  | reset => nofun

theorem State.useMove_inv {s : State} (h : s.Inv) : s.useMove.Inv := by
  obtain ⟨-, -, hport, -⟩ := id h
  exact h.congr s.useMove_build s.useMove_engines s.useMove_mem (by simpa using hport)

/-- Settles O38: a step is an event, or it has no move and answers another fault or the same state. -/
theorem noUnwrittenTableRead : Obligations.NoUnwrittenTableRead := by
  intro s hs k j
  cases hm : s.nextMove with
  | none =>
    simp only [step, nextEvent, hm]
    split <;> nofun
  | some ev =>
    rw [step_of_nextMove hm]
    exact runEvent_ne_unwrittenLutRead (State.useMove_inv hs) ev k j

end Sys2Proof.Machine

namespace Sys2Proof.Machine

/-! ### A calculate before its completion step -/

/-- After `n` of the bytes left a running calculate still runs, with READY and RESULT as they were (10_state.md R26,
R28). -/
theorem State.Calculating.run {k m : Nat} (n : Nat) {s : State} {e : Engine} (h : s.Calculating k e (n + m)) :
    ∃ u e', runEngine k n s = .next u ∧ u.Calculating k e' m ∧ e'.ready = e.ready ∧ e'.result = e.result ∧
      e'.idx.toNat = e.idx.toNat + n := by
  induction n generalizing s e with
  | zero => exact ⟨s, e, rfl, by simpa using h, rfl, rfl, rfl⟩
  | succ n ih =>
    rw [Nat.add_right_comm] at h
    have hidx := Engine.idx_step (e := e) (by have := h.left; omega)
    obtain ⟨c, -, hstep, hnext⟩ := h.byte
    obtain ⟨u, e', hu, hrun, hready, hresult, hidx'⟩ := ih hnext
    refine ⟨u, e', (runEngine_succ hstep n).trans hu, hrun, hready, hresult, ?_⟩
    rw [hidx', hidx, Nat.add_assoc, Nat.add_comm 1 n]

/-- A calculate accepted from the byte `idx` on with `len` bytes to read is BUSY after up to `len` steps, with READY and
RESULT as they were. -/
theorem runEngine_startCalc {s : State} (hs : s.Inv) {e : Engine} (hidle : s.IdlePort e) (c : Byte) {idx endIdx : Byte}
    {len n : Nat} (hlen : idx.toNat + len = endIdx.toNat) (ha : s.AdmitsBuffer e.base idx.toNat len) (hn : n ≤ len) :
    ∃ u e', runEngine s.port n (s.setEngine s.port (e.startCalc s.build c idx endIdx)) = .next u ∧
      u.engines[s.port]? = some e' ∧ e'.busy = true ∧ e'.ready = e.ready ∧ e'.result = e.result ∧
      e'.idx.toNat = idx.toNat + n := by
  obtain ⟨m, rfl⟩ := Nat.exists_eq_add_of_le hn
  have hcalc := State.startCalc_calculating hs hidle.1 hidle.2 c hlen ha
  obtain ⟨u, e', hu, hrun, hready, hresult, hidx⟩ := hcalc.run
  exact ⟨u, e', hu, hrun.get, by simp [hrun.phase], hready, hresult, hidx⟩

/-- Settles O52: the acceptance leaves a running calculate, which the byte steps keep running. -/
theorem calcBusyUntilComplete : Obligations.CalcBusyUntilComplete := by
  intro s e hs hidle
  have hi := State.engine_inv hs hidle.1
  have hready := Engine.ready_of_not_gen hi (by simp [hidle.2])
  refine ⟨fun start len ha n hn => ?_, fun ofs start len hlt ha n hn => ?_⟩
  · obtain ⟨c, hc⟩ := Engine.xformBy_of_ready hi hready 0x00#8 start
    obtain ⟨u, e', hrun⟩ := runEngine_startCalc hs hidle c (idx := 0x00#8) (Nat.zero_add _) ha hn
    exact ⟨_, u, e', exec_calculate_of_idle hidle len hc, by simpa using hrun⟩
  · obtain ⟨u, e', hrun⟩ := runEngine_startCalc hs hidle 0x00#8 (endIdx := len) (by omega) ha hn
    exact ⟨_, u, e', exec_calculateOfs_of_idle hidle start hlt, hrun⟩

end Sys2Proof.Machine

namespace Sys2Proof.Machine

/-! ### The register window and reset -/

/-- The value of the low `ADDR_W` bits of a word (10_state.md R27). -/
theorem addrBits_toNat (b : Build) (w : Word) : (addrBits b w).toNat = w.toNat % 2 ^ b.addrW := by
  rw [addrBits, BitVec.toNat_ofNat]
  exact Nat.mod_eq_of_lt ((Nat.mod_le _ _).trans_lt w.isLt)

/-- A STATUS write clears each sticky bit whose bit of the word is 1 (10_state.md R24). -/
theorem Engine.clearStatus_eq (e : Engine) (w : Word) :
    e.clearStatus w = { e with
      illegal := if w.getLsbD 2 = true then false else e.illegal
      overrun := if w.getLsbD 3 = true then false else e.overrun } := by
  have clear_bit (x y : Bool) : (x && !y) = if y = true then false else x := by cases y <;> simp
  rw [Engine.clearStatus, clear_bit, clear_bit]

/-- A host read of a register records what it returns, and changes nothing else (30_encoding.md R90). -/
theorem hostOp_regRead {s : State} {k : Nat} {e : Engine} (he : s.engines[k]? = some e) (r : BitVec 3) :
    hostOp (.regRead k r) s = .next { s with reads := s.reads ++ [e.readReg s.build k r] } := by
  simp [hostOp, he]

/-- A host write of a register other than CMD replaces the engine by what the register write makes of it. -/
theorem hostOp_regWrite {s : State} {k : Nat} {e : Engine} (he : s.engines[k]? = some e) {r : BitVec 3} (hr : r ≠ 0#3)
    (w : Word) : hostOp (.regWrite k r w) s = .next (s.setEngine k (e.writeReg s.build r w)) := by
  simp [hostOp, he, hr]

/-- An engine put in its own place changes nothing. -/
theorem State.setEngine_self {s : State} {k : Nat} {e : Engine} (he : s.engines[k]? = some e) : s.setEngine k e = s := by
  obtain ⟨hk, rfl⟩ := List.getElem?_eq_some_iff.mp he
  simp [State.setEngine]

/-- A host write of a register that ignores writes changes nothing (10_state.md R28 to R30). -/
theorem hostOp_regWrite_ignored {s : State} {k : Nat} {e : Engine} (he : s.engines[k]? = some e) {r : BitVec 3}
    (hr : 3 ≤ r.toNat) (w : Word) : hostOp (.regWrite k r w) s = .next s := by
  have ne (v : BitVec 3) (hv : v.toNat < 3) : r ≠ v := fun h => by subst h; omega
  rw [hostOp_regWrite he (ne 0#3 (by decide)), e.writeReg_ignored _ _ (ne 1#3 (by decide)) (ne 2#3 (by decide)),
    State.setEngine_self he]

/-- The reserved registers read 0 (10_state.md R30). -/
theorem Engine.readReg_reserved (b : Build) (k : Nat) (e : Engine) {r : BitVec 3} (hr : 5 ≤ r.toNat) :
    e.readReg b k r = 0#32 := by
  unfold Engine.readReg
  split
  iterate 4 omega
  rfl

/-- The bits of STATUS (10_state.md R24). -/
theorem Engine.statusWord_bits (e : Engine) :
    e.statusWord.getLsbD 0 = e.ready ∧ e.statusWord.getLsbD 1 = e.busy ∧ e.statusWord.getLsbD 2 = e.illegal ∧
    e.statusWord.getLsbD 3 = e.overrun ∧ e.statusWord.extractLsb' 4 28 = 0#28 := by
  unfold Engine.statusWord
  generalize e.ready = r, e.busy = b, e.illegal = i, e.overrun = o
  cases r <;> cases b <;> cases i <;> cases o <;> decide

/-- The fields of CONFIG (10_state.md R29). -/
theorem configWord_fields (b : Build) (k : Nat) :
    (configWord b k).extractLsb' 0 2 = Strategy.code b.strategy ∧ (configWord b k).getLsbD 2 = b.testHook ∧
    (configWord b k).extractLsb' 3 5 = 0#5 ∧ (configWord b k).extractLsb' 8 8 = poly ∧
    (configWord b k).extractLsb' 16 8 = BitVec.ofNat 8 k ∧
    (configWord b k).extractLsb' 24 8 = BitVec.ofNat 8 (b.nInst - 1) := by
  have fields (n x p : Byte) (z : BitVec 5) (h : Bool) (c : BitVec 2) :
      (n ++ x ++ p ++ z ++ BitVec.ofBool h ++ c).extractLsb' 0 2 = c ∧
      (n ++ x ++ p ++ z ++ BitVec.ofBool h ++ c).getLsbD 2 = h ∧
      (n ++ x ++ p ++ z ++ BitVec.ofBool h ++ c).extractLsb' 3 5 = z ∧
      (n ++ x ++ p ++ z ++ BitVec.ofBool h ++ c).extractLsb' 8 8 = p ∧
      (n ++ x ++ p ++ z ++ BitVec.ofBool h ++ c).extractLsb' 16 8 = x ∧
      (n ++ x ++ p ++ z ++ BitVec.ofBool h ++ c).extractLsb' 24 8 = n := by
    simp (disch := decide) [BitVec.extractLsb'_append_eq_of_le, BitVec.extractLsb'_append_eq_of_add_le,
      BitVec.extractLsb'_eq_self, BitVec.getLsbD_append, -Nat.reduceAdd, -BitVec.getLsbD_eq_getElem]
  exact fields _ _ _ _ _ _

/-- RESULT reads zero-extended (10_state.md R28). -/
theorem Engine.readReg_result_fields (b : Build) (k : Nat) (e : Engine) :
    (e.readReg b k 3#3).extractLsb' 0 8 = e.result ∧ (e.readReg b k 3#3).extractLsb' 8 24 = 0#24 := by
  change (e.result.setWidth 32).extractLsb' 0 8 = e.result ∧ (e.result.setWidth 32).extractLsb' 8 24 = 0#24
  constructor
  · rw [BitVec.extractLsb'_setWidth_of_le (by decide), BitVec.extractLsb'_eq_self]
  · ext j hj; simp

/-- BASE has zeros from bit `ADDR_W` on (10_state.md R27). -/
theorem Engine.base_high_zero {b : Build} {e : Engine} (h : e.Inv b) {i : Nat} (hi : b.addrW ≤ i) :
    e.base.getLsbD i = false := by
  obtain ⟨-, -, hbase, -⟩ := h
  exact Nat.testBit_lt_two_pow (hbase.trans_le (Nat.pow_le_pow_right Nat.two_pos hi))

/-- Settles O27: the value read is `readReg`, whose fields are those of the register's word. -/
theorem registerReads : Obligations.RegisterReads := by
  intro s k e r he
  refine ⟨_, hostOp_regRead he r, ?_, ?_, ?_, ?_, ?_, Engine.readReg_reserved s.build k e⟩
  · rintro rfl; rfl
  · rintro rfl
    obtain ⟨hready, hbusy, hrest⟩ := e.statusWord_bits
    exact ⟨hready, by rw [← Engine.busy_eq_true, ← hbusy]; rfl, hrest⟩
  · rintro rfl
    exact ⟨rfl, fun hs i hi => Engine.base_high_zero (State.engine_inv hs he) hi⟩
  · rintro rfl
    exact e.readReg_result_fields s.build k
  · rintro rfl
    exact configWord_fields s.build k

/-- Settles O28: each write is the register write of its index. -/
theorem registerWrites : Obligations.RegisterWrites := by
  intro s k e w he
  refine ⟨?_, ⟨addrBits s.build w, hostOp_regWrite he (by decide) w, addrBits_toNat s.build w⟩,
    hostOp_regWrite_ignored he (by decide) w, hostOp_regWrite_ignored he (by decide) w⟩
  rw [hostOp_regWrite he (by decide), Engine.writeReg_toStatus, Engine.clearStatus_eq]

/-- Settles O29: the reserved registers are beyond those that read or take a value. -/
theorem reservedRegisters : Obligations.ReservedRegisters := by
  intro s k e r w he hr
  have hge : 5 ≤ r.toNat := by rcases hr with rfl | rfl | rfl <;> decide
  exact ⟨by rw [hostOp_regRead he, Engine.readReg_reserved _ _ _ hge], hostOp_regWrite_ignored he (by omega) w⟩

/-- Settles O33: every engine after reset is `Engine.reset`. -/
theorem resetValues : Obligations.ResetValues := by
  intro s k e he
  have hreset : e = Engine.reset s.build := by
    obtain ⟨x, -, hx⟩ := Option.map_eq_some_iff.mp (List.getElem?_map.symm.trans he)
    exact hx.symm
  subst hreset
  obtain ⟨-, -, -, -, hhigh⟩ := (Engine.reset s.build).statusWord_bits
  refine ⟨rfl, ?_, rfl, rfl, hhigh, rfl, rfl, rfl, rfl, rfl, fun _ => rfl, ?_, ?_,
    rfl, rfl, rfl, rfl, rfl, rfl, rfl, rfl, rfl⟩
  · cases h : s.build.strategy <;> simp [Engine.busy, h]
  · intro h; simp [h]
  · intro h; simp [h]

/-- Settles O39: under the invariant READY is 0 exactly in GEN, and BUSY is 0 exactly when idle. -/
theorem readyBusyPairs : Obligations.ReadyBusyPairs := by
  intro s hs e he
  obtain ⟨-, -, -, -, -, hengines, -⟩ := hs
  have hi := hengines e he
  obtain ⟨-, -, -, -, hunready, -⟩ := id hi
  have running (hp : e.phase ≠ .gen) (hp' : e.phase ≠ .idle) : e.ready = true ∧ e.busy = true :=
    ⟨Engine.ready_of_not_gen hi hp, Engine.busy_eq_true.mpr hp'⟩
  obtain ⟨hready, hbusy, -⟩ := e.statusWord_bits
  rw [hready, hbusy]
  refine ⟨Engine.busy_eq_true, fun hp => ⟨hunready.mpr hp, by simp [hp]⟩,
    fun hp => ⟨Engine.ready_of_not_gen hi (by simp [hp]), by simp [hp]⟩, ?_, fun ⟨hr, hb⟩ => ?_⟩
  · rintro (hp | hp | hp)
    all_goals exact running (by simp [hp]) (by simp [hp])
  · have hgen := hunready.mp hr
    simp [Engine.busy_eq_false.mp hb] at hgen

end Sys2Proof.Machine

namespace Sys2Proof.Machine

/-! ### Reads of data memory by an engine -/

/-- An engine whose next read is not admitted has no enabled step (20_memory.md R66). -/
theorem State.enabledStep_unadmitted {s : State} {e : Engine} (hp : e.phase = .calculate)
    (hlt : e.idx.toNat < e.endIdx.toNat) (ha : s.admits (e.nextAddr s.build) = false) : s.enabledStep e = none := by
  simp [State.enabledStep, hp, hlt, State.memRead_eq_none.mpr ha]

/-- The event of an engine without an enabled step changes nothing. -/
theorem engineStep_of_not_enabled {s : State} {k : Nat} {e : Engine} (he : s.engines[k]? = some e)
    (h : s.enabledStep e = none) : engineStep k s = .next s := by
  simp [engineStep, he, h]

/-- `E[k]` cannot step where it has no enabled step or does not exist. -/
theorem State.canStep_eq_false {s : State} {k : Nat} (h : ∀ e, s.engines[k]? = some e → s.enabledStep e = none) :
    s.canStep k = false := by
  unfold State.canStep
  split
  · rfl
  · next e he => simp [h e he]

/-- No agent is enabled where the host has no transaction and no engine can step. -/
theorem State.enabledAgents_eq_nil {s : State} (hhost : s.host = []) (h : ∀ k, s.canStep k = false) :
    s.enabledAgents = [] := by
  simp [State.enabledAgents, hhost, h]

/-- Where nobody moves and some engine is busy, there is no next state (60_exceptions.md R161). -/
theorem step_of_stuck {s : State} (hm : s.nextMove = none) {e : Engine} (he : e ∈ s.engines) (hp : e.phase ≠ .idle) :
    step s = .fault .readNotAdmitted := by
  have hbusy : s.engines.any Engine.busy = true := List.any_eq_true.mpr ⟨e, he, Engine.busy_eq_true.mpr hp⟩
  simp [step, nextEvent, hm, hbusy]

/-- Settles O8: the engine has no enabled step; where the others are idle and the host has ended, nobody has. -/
theorem unadmittedReadIsStuck : Obligations.UnadmittedReadIsStuck := by
  intro s k e he hp hlt hadm
  have hnone : s.enabledStep e = none := State.enabledStep_unadmitted hp hlt hadm
  refine ⟨engineStep_of_not_enabled he hnone, fun hsched hhost hidle => ?_⟩
  have hstuck (j : Nat) : s.canStep j = false := State.canStep_eq_false fun x hx => by
    by_cases hj : j = k
    · subst hj
      cases he.symm.trans hx
      exact hnone
    · exact State.enabledStep_idle (hidle j x hx hj)
  exact step_of_stuck (State.nextMove_eq_none hsched (State.enabledAgents_eq_nil hhost hstuck))
    (List.mem_of_getElem? he) (by simp [hp])

/-- XFORM from the premise of each strategy: the table's entry under SPEED, the transform under SIZE. -/
theorem xformBy_eq_some {b : Build} {lut : Memory} {c x y : Byte}
    (hspeed : b.strategy = .speed → Memory.read lut (c ^^^ x).toNat = some y)
    (hsize : b.strategy = .size → y = polyT (c ^^^ x)) : xformBy b lut c x = some y := by
  cases hb : b.strategy with
  | speed => rw [xformBy_speed hb, hspeed hb]
  | size => rw [xformBy_size hb, hsize hb, xform]

/-- A running calculate whose next read is admitted folds the byte it reads and counts it (42_calculate.md R123). -/
theorem engineStep_byte {s : State} {k a : Nat} {e : Engine} {b c : Byte} (he : s.engines[k]? = some e)
    (hp : e.phase = .calculate) (hlt : e.idx.toNat < e.endIdx.toNat) (ha : a = e.nextAddr s.build)
    (hadm : s.admits a = true) (hb : s.byteAt a = b) (hc : xformBy s.build e.lut e.c b = some c) :
    engineStep k s = .next (s.setEngine k { e with c := c, idx := e.idx + 1#8 }) := by
  subst ha hb
  exact (engineStep_of_enabled he (State.enabledStep_byte hp hlt hadm)).trans (byteStep_of_xformBy hc)

/-- Settles O22: the byte step is enabled, XFORM answers, and IDX is below END. (`byteStep` is the model's own name.) -/
theorem byteStep_folds_next_byte : Obligations.ByteStep := fun _ _ _ _ _ he hp hlt hadm hb hspeed hsize =>
  ⟨engineStep_byte he hp hlt rfl hadm hb.symm (xformBy_eq_some hspeed hsize), Engine.idx_step hlt⟩

/-- Settles O26: a step replaces the engine that moves, or changes nothing. -/
theorem engineStepTouchesItselfOnly : Obligations.EngineStepTouchesItselfOnly := by
  intro k s t h
  rcases engineStep_cases h with rfl | ⟨e, e', -, -, rfl⟩
  · exact ⟨fun _ _ => rfl, rfl, fun _ => ⟨rfl, rfl⟩, rfl, rfl, rfl, rfl, rfl, rfl, rfl⟩
  · exact ⟨fun j hj => State.setEngine_get_other hj.symm e', by simp, fun _ => ⟨rfl, rfl⟩,
      rfl, rfl, rfl, rfl, rfl, rfl, rfl⟩

/-! ### Writes of data memory by the host -/

/-- Data memory with one byte written (20_memory.md R60). -/
def State.writeByte (s : State) (a : Nat) (b : Byte) : State := { s with mem := Memory.write s.mem a b }

@[simp] theorem State.byteAt_writeByte_same (s : State) (a : Nat) (b : Byte) : (s.writeByte a b).byteAt a = b := by
  simp [State.byteAt, State.writeByte]

/-- A written byte leaves every other address as it was. -/
theorem State.byteAt_writeByte_other (s : State) {a a' : Nat} (h : a' ≠ a) (b : Byte) :
    (s.writeByte a b).byteAt a' = s.byteAt a' := by
  simp [State.byteAt, State.writeByte, Memory.read_write_other s.mem h]

/-- A data write at an address that exists writes the byte there, and changes nothing else (20_memory.md R60). -/
theorem hostOp_dataWrite {s : State} {a : Word} (ha : a.toNat < 2 ^ s.build.addrW) (b : Byte) :
    hostOp (.dataWrite a b) s = .next (s.writeByte a.toNat b) := by
  simp [hostOp, State.hasAddress, ha, State.writeByte]

/-- A data read at an address that exists records the byte memory holds there, and changes nothing else. -/
theorem hostOp_dataRead {s : State} {a : Word} {b : Byte} (ha : a.toNat < 2 ^ s.build.addrW)
    (hb : s.byteAt a.toNat = b) : hostOp (.dataRead a) s = .next { s with reads := s.reads ++ [b.setWidth 32] } := by
  simp [hostOp, State.hasAddress, ha, hb]

/-- Settles O31: the write stores the byte, and the read records what memory holds. -/
theorem dataWriteThenRead : Obligations.DataWriteThenRead := by
  intro s a b ha
  have hsame : (s.writeByte a.toNat b).byteAt a.toNat = b := s.byteAt_writeByte_same a.toNat b
  exact ⟨_, hostOp_dataWrite ha b, hsame, fun a' ha' => s.byteAt_writeByte_other ha' b, rfl, hostOp_dataRead ha hsame⟩

/-- Settles O32: of all that an event can do, only the host's data write reaches data memory. -/
theorem onlyHostWritesDataMemory : Obligations.OnlyHostWritesDataMemory := by
  intro ev s t h a hne
  cases ev with
  | host =>
    cases hostStep_effect h with
    | record => exact absurd rfl hne
    | @data addr b rest hop =>
      by_cases ha : a = addr.toNat
      · subst ha
        exact ⟨addr, b, rest, rfl, hop, rfl, s.byteAt_writeByte_same addr.toNat b⟩
      · exact absurd (s.byteAt_writeByte_other ha b) hne
    | register => exact absurd rfl hne
    | command => exact absurd rfl hne
  | engine k => rcases engineStep_cases h with rfl | ⟨e, e', -, -, rfl⟩ <;> exact absurd rfl hne
  | reset => cases h; exact absurd rfl hne

/-! ### The race of a data write with a byte step -/

/-- The host's step at a data write is that write, with the transaction used up. -/
theorem hostStep_dataWrite {s : State} {a : Word} {b : Byte} {rest : List HostOp} (h : s.host = .dataWrite a b :: rest)
    (ha : a.toNat < 2 ^ s.build.addrW) :
    hostStep s = .next (({ s with host := rest } : State).writeByte a.toNat b) := by
  rw [hostStep, h]
  exact hostOp_dataWrite (s := { s with host := rest }) ha b

/-- Two events one after the other. -/
theorem runEvents_pair {ev ev' : Event} {s t u : State} (h : runEvent ev s = .next t) (h' : runEvent ev' t = .next u) :
    runEvents [ev, ev'] s = .next u :=
  (runEvents_cons h _).trans (runEvents_cons h' _)

/-- Settles O59: the byte step reads memory as it stands, before the write or after it; neither step reaches what the
other one needs. -/
theorem bufferRaceHasBothOutcomes : Obligations.BufferRaceHasBothOutcomes := by
  intro s k e a b cOld cNew rest he hp hlt ha hadm hold hnew hhost
  have haddr : a.toNat < 2 ^ s.build.addrW := ha ▸ elementAddr_lt s.build e.abase e.idx.toNat
  constructor
  · have hbyte := engineStep_byte he hp hlt ha hadm rfl hold
    exact ⟨_, runEvents_pair (ev := .engine k) (ev' := .host) hbyte (hostStep_dataWrite hhost haddr),
      congrArg (Option.map Engine.c) (State.setEngine_get_self he _), State.byteAt_writeByte_same _ _ b⟩
  · have hsame := State.byteAt_writeByte_same { s with host := rest } a.toNat b
    have hbyte := engineStep_byte (s := ({ s with host := rest } : State).writeByte a.toNat b) he hp hlt ha hadm
      hsame hnew
    exact ⟨_, runEvents_pair (ev := .host) (ev' := .engine k) (hostStep_dataWrite hhost haddr) hbyte,
      congrArg (Option.map Engine.c) (State.setEngine_get_self he _), hsame⟩

end Sys2Proof.Machine

namespace Sys2Proof

/-! ### The bytes of a command word -/

/-- `w[7:0]`: OP and the four reserved bits above it (30_encoding.md R81). -/
def opByte (w : Word) : Byte := w.extractLsb' 0 8

/-- The word with these four bytes, the highest one first (30_encoding.md R82 to R84). -/
def commandWord (b31 b23 b15 op : Byte) : Word := b31 ++ b23 ++ b15 ++ op

section CommandWord

variable (b31 b23 b15 op : Byte)

/-- Each byte of the word stands at its place. -/
theorem commandWord_eq : commandWord b31 b23 b15 op =
    b31.setWidth 32 <<< 24 ||| b23.setWidth 32 <<< 16 ||| b15.setWidth 32 <<< 8 ||| op.setWidth 32 :=
  (BitVec.setWidth_eq _).symm.trans BitVec.setWidth_append_append_append_eq_shiftLeft_setWidth_or

@[simp] theorem field31_commandWord : field31 (commandWord b31 b23 b15 op) = b31 :=
  (BitVec.extractLsb'_append_eq_of_le (xhi := b31 ++ b23 ++ b15) (by decide : 8 ≤ 24)).trans <|
    (BitVec.extractLsb'_append_eq_of_le (xhi := b31 ++ b23) (by decide : 8 ≤ 16)).trans <|
      BitVec.extractLsb'_append_eq_left

@[simp] theorem field23_commandWord : field23 (commandWord b31 b23 b15 op) = b23 :=
  (BitVec.extractLsb'_append_eq_of_le (xhi := b31 ++ b23 ++ b15) (by decide : 8 ≤ 16)).trans <|
    (BitVec.extractLsb'_append_eq_of_le (xhi := b31 ++ b23) (by decide : 8 ≤ 8)).trans <|
      BitVec.extractLsb'_append_eq_right

@[simp] theorem field15_commandWord : field15 (commandWord b31 b23 b15 op) = b15 :=
  (BitVec.extractLsb'_append_eq_of_le (xhi := b31 ++ b23 ++ b15) (by decide : 8 ≤ 8)).trans
    BitVec.extractLsb'_append_eq_right

@[simp] theorem opByte_commandWord : opByte (commandWord b31 b23 b15 op) = op :=
  BitVec.extractLsb'_append_eq_right

end CommandWord

/-- Every word is the word of its own bytes. -/
theorem commandWord_fields (w : Word) : commandWord (field31 w) (field23 w) (field15 w) (opByte w) = w := by
  rw [commandWord, field31, field23, field15, opByte,
    BitVec.extractLsb'_append_extractLsb'_eq_extractLsb' (start₁ := 16) (len₁ := 8) (start₂ := 24) rfl,
    BitVec.extractLsb'_append_extractLsb'_eq_extractLsb' (start₁ := 8) (len₁ := 8) (start₂ := 16) rfl,
    BitVec.extractLsb'_append_extractLsb'_eq_extractLsb' (start₁ := 0) (len₁ := 8) (start₂ := 8) rfl]
  exact BitVec.extractLsb'_eq_self

/-- A word with given bytes is told from every other one by its bytes. -/
theorem commandWord_eq_iff {b31 b23 b15 op : Byte} {w : Word} :
    commandWord b31 b23 b15 op = w ↔ field31 w = b31 ∧ field23 w = b23 ∧ field15 w = b15 ∧ opByte w = op := by
  constructor
  · rintro rfl
    simp
  · rintro ⟨rfl, rfl, rfl, rfl⟩
    exact commandWord_fields w

/-! The words of 30_encoding.md R91, by their bytes. -/

theorem encode_calculate (start len : Byte) : encode (.calculate start len) = commandWord len 0x00#8 start 0x01#8 := by
  simp [encode, commandWord_eq]

theorem encode_calculateOfs (ofs start len : Byte) :
    encode (.calculateOfs ofs start len) = commandWord len ofs start 0x02#8 := by
  simp [encode, commandWord_eq]

theorem encode_copy (src : Byte) : encode (.copy src) = commandWord 0x00#8 0x00#8 src 0x03#8 := by
  simp [encode, commandWord_eq]

theorem encode_testWr (tidx tval : Byte) :
    encode (.testWr tidx tval) = commandWord 0x00#8 tval tidx 0x04#8 := by
  simp [encode, commandWord_eq]

/-! ### The rows of the opcode map, and what decodes -/

/-- A masked word has a value where its masked bytes have the value's bytes. -/
theorem masked_eq_iff (w m : Word) (b31 b23 b15 op : Byte) : w &&& m = commandWord b31 b23 b15 op ↔
    field31 w &&& field31 m = b31 ∧ field23 w &&& field23 m = b23 ∧
      field15 w &&& field15 m = b15 ∧ opByte w &&& opByte m = op := by
  rw [eq_comm, commandWord_eq_iff]
  simp only [field31, field23, field15, opByte, BitVec.extractLsb'_and]

/-- The mask `0xFF` keeps a byte. -/
theorem byte_and_ones (x : Byte) : x &&& 0xFF#8 = x := BitVec.and_allOnes

/-! Which bytes each row of 30_encoding.md R86 fixes. -/

section Rows

variable (w : Word)

theorem calculate_row_iff :
    w &&& 0x00FF00FF#32 = 0x00000001#32 ↔ field23 w = 0x00#8 ∧ opByte w = 0x01#8 :=
  (masked_eq_iff w _ 0x00#8 0x00#8 0x00#8 0x01#8).trans <| by
    simp [field31, field23, field15, opByte, byte_and_ones]

theorem calculateOfs_row_iff : w &&& 0x000000FF#32 = 0x00000002#32 ↔ opByte w = 0x02#8 :=
  (masked_eq_iff w _ 0x00#8 0x00#8 0x00#8 0x02#8).trans <| by
    simp [field31, field23, field15, opByte, byte_and_ones]

theorem copy_row_iff :
    w &&& 0xFFFF00FF#32 = 0x00000003#32 ↔ field31 w = 0x00#8 ∧ field23 w = 0x00#8 ∧ opByte w = 0x03#8 :=
  (masked_eq_iff w _ 0x00#8 0x00#8 0x00#8 0x03#8).trans <| by
    simp [field31, field23, field15, opByte, byte_and_ones]

theorem testWr_row_iff :
    w &&& 0xFF0000FF#32 = 0x00000004#32 ↔ field31 w = 0x00#8 ∧ opByte w = 0x04#8 :=
  (masked_eq_iff w _ 0x00#8 0x00#8 0x00#8 0x04#8).trans <| by
    simp [field31, field23, field15, opByte, byte_and_ones]

end Rows

/-- `decode` by the bytes of the word (30_encoding.md R87). -/
theorem decode_eq (b : Build) (w : Word) : decode b w =
    if field23 w = 0x00#8 ∧ opByte w = 0x01#8 then .ok (.calculate (field15 w) (field31 w))
    else if opByte w = 0x02#8 then .ok (.calculateOfs (field23 w) (field15 w) (field31 w))
    else if (field31 w = 0x00#8 ∧ field23 w = 0x00#8 ∧ opByte w = 0x03#8) ∧ (field15 w).toNat < b.nInst then
      .ok (.copy (field15 w))
    else if (field31 w = 0x00#8 ∧ opByte w = 0x04#8) ∧ b.testHook = true ∧ b.strategy = .speed then
      .ok (.testWr (field15 w) (field23 w))
    else .error (illegalCause w) := by
  simp only [decode, calculate_row_iff, calculateOfs_row_iff, copy_row_iff, testWr_row_iff]

/-- A word decodes to a command exactly where it is the word of that command and the build has it (30_encoding.md R86,
R87). -/
theorem decode_eq_ok_iff {b : Build} {w : Word} {i : Instr} :
    decode b w = .ok i ↔ i.wf b = true ∧ encode i = w := by
  rw [decode_eq]
  constructor
  · intro h
    split at h
    · next hrow => cases h; exact ⟨rfl, by simp [encode_calculate, commandWord_eq_iff, hrow]⟩
    · split at h
      · next hrow => cases h; exact ⟨rfl, by simp [encode_calculateOfs, commandWord_eq_iff, hrow]⟩
      · split at h
        · next hrow => cases h; exact ⟨by simp [Instr.wf, hrow], by simp [encode_copy, commandWord_eq_iff, hrow]⟩
        · split at h
          · next hrow =>
            cases h; exact ⟨by simp [Instr.wf, hrow], by simp [encode_testWr, commandWord_eq_iff, hrow]⟩
          · cases h
  · rintro ⟨hwf, rfl⟩
    cases i with
    | calculate start len => simp [encode_calculate]
    | calculateOfs ofs start len => simp [encode_calculateOfs]
    | copy src =>
      have hsrc : src.toNat < b.nInst := by simpa [Instr.wf] using hwf
      simp [encode_copy, hsrc]
    | testWr tidx tval =>
      have hbuild : b.testHook = true ∧ b.strategy = .speed := by simpa [Instr.wf] using hwf
      simp [encode_testWr, hbuild]

/-- Settles O2: the word of a command that the build has decodes to it. -/
theorem decodeOfEncode : Obligations.DecodeOfEncode := fun _ _ hwf => decode_eq_ok_iff.mpr ⟨hwf, rfl⟩

/-- Settles O3: the word decodes to any command whose word it is, and `decode` has one answer. -/
theorem encodeOfDecode : Obligations.EncodeOfDecode := by
  intro b w i h
  obtain ⟨hwf, hw⟩ := decode_eq_ok_iff.mp h
  refine ⟨hwf, hw, fun j hj hjw => ?_⟩
  have hdecode : decode b w = .ok j := decode_eq_ok_iff.mpr ⟨hj, hjw⟩
  exact Except.ok.inj (hdecode.symm.trans h)

/-! ### The illegal words -/

/-- Two concatenations are the same where their halves are. -/
theorem append_eq_append_iff {m n : Nat} {x x' : BitVec m} {y y' : BitVec n} :
    x ++ y = x' ++ y' ↔ x = x' ∧ y = y' := by
  constructor
  · intro h
    have hhigh := congrArg (BitVec.extractLsb' n m) h
    have hlow := congrArg (BitVec.extractLsb' 0 n) h
    rw [BitVec.extractLsb'_append_eq_left, BitVec.extractLsb'_append_eq_left] at hhigh
    rw [BitVec.extractLsb'_append_eq_right, BitVec.extractLsb'_append_eq_right] at hlow
    exact ⟨hhigh, hlow⟩
  · rintro ⟨rfl, rfl⟩
    rfl

/-- The low byte is an opcode where the reserved bits are 0 and OP is it (30_encoding.md R81). -/
theorem opByte_eq_iff (w : Word) (v : Byte) (op : BitVec 4) (hv : v = 0x0#4 ++ op) :
    opByte w = v ↔ w.extractLsb' 4 4 = 0x0#4 ∧ w.extractLsb' 0 4 = op := by
  have hsplit : opByte w = w.extractLsb' 4 4 ++ w.extractLsb' 0 4 :=
    (BitVec.extractLsb'_append_extractLsb'_eq_extractLsb' (start₁ := 0) (len₁ := 4) (start₂ := 4) rfl).symm
  rw [hsplit, hv, append_eq_append_iff]

/-- The bits `w[31:16]` are 0 where both of their bytes are. -/
theorem highHalf_eq_zero_iff (w : Word) :
    w.extractLsb' 16 16 = 0x0000#16 ↔ field31 w = 0x00#8 ∧ field23 w = 0x00#8 := by
  have hsplit : w.extractLsb' 16 16 = field31 w ++ field23 w :=
    (BitVec.extractLsb'_append_extractLsb'_eq_extractLsb' (start₁ := 16) (len₁ := 8) (start₂ := 24) rfl).symm
  rw [hsplit, show 0x0000#16 = 0x00#8 ++ 0x00#8 from rfl, append_eq_append_iff]

/-- A word is illegal where it matches no row of the opcode map that the build has (30_encoding.md R87). -/
theorem decode_toOption_eq_none_iff (b : Build) (w : Word) : (decode b w).toOption = none ↔
    ¬ (field23 w = 0x00#8 ∧ opByte w = 0x01#8) ∧ opByte w ≠ 0x02#8 ∧
    ¬ ((field31 w = 0x00#8 ∧ field23 w = 0x00#8 ∧ opByte w = 0x03#8) ∧ (field15 w).toNat < b.nInst) ∧
    ¬ ((field31 w = 0x00#8 ∧ opByte w = 0x04#8) ∧ b.testHook = true ∧ b.strategy = .speed) := by
  rw [decode_eq]
  split_ifs <;> simp [Except.toOption, *]

/-- OP is reserved or one of the four opcodes (30_encoding.md R86). -/
theorem opcode_cases (op : BitVec 4) :
    ((op = 0x0#4 ∨ 0x5 ≤ op.toNat) ∧ op ≠ 0x1#4 ∧ op ≠ 0x2#4 ∧ op ≠ 0x3#4 ∧ op ≠ 0x4#4) ∨
      op = 0x1#4 ∨ op = 0x2#4 ∨ op = 0x3#4 ∨ op = 0x4#4 := by
  decide +revert

theorem strategy_ne_speed {st : Strategy} : ¬ st = .speed ↔ st = .size := by
  cases st <;> decide

/-- Settles O4: words with reserved bits set match no row; the others are told apart by OP. -/
theorem illegalWordsExactly : Obligations.IllegalWordsExactly := by
  intro b w
  have h31 : w.extractLsb' 24 8 = field31 w := rfl
  have h23 : w.extractLsb' 16 8 = field23 w := rfl
  have h15 : w.extractLsb' 8 8 = field15 w := rfl
  simp only [ne_eq, h31, h23, h15, decode_toOption_eq_none_iff, highHalf_eq_zero_iff,
    opByte_eq_iff w 0x01#8 0x1#4 rfl, opByte_eq_iff w 0x02#8 0x2#4 rfl, opByte_eq_iff w 0x03#8 0x3#4 rfl,
    opByte_eq_iff w 0x04#8 0x4#4 rfl]
  generalize w.extractLsb' 0 4 = op
  by_cases hrsv : w.extractLsb' 4 4 = 0x0#4
  · rcases opcode_cases op with ⟨hreserved, hop⟩ | rfl | rfl | rfl | rfl
    · simp [hop, hreserved]
    · simp [hrsv]
    · simp [hrsv]
    · by_cases hhigh : field31 w = 0x00#8 ∧ field23 w = 0x00#8 <;> simp [hrsv, hhigh]
    · cases hhook : b.testHook <;> simp [hrsv, strategy_ne_speed, imp_iff_not_or]
  · simp [hrsv]

/-- Settles O1: the words are those of R91, and the two illegal words match no row. -/
theorem exampleCommandWords : Obligations.ExampleCommandWords := by
  unfold Obligations.ExampleCommandWords
  decide

end Sys2Proof

namespace Sys2Proof.Machine

/-! ### A CMD write -/

/-- Where the host moves next and its next transaction is a CMD write, the step is that write, with the event and the
transaction used up (30_encoding.md R80). -/
theorem step_cmdWrite {s : State} {k : Nat} {w : Word} {rest : List HostOp} {sched : List Event} {e : Engine}
    (hsched : s.schedule = .host :: sched) (hhost : s.host = .regWrite k 0#3 w :: rest)
    (he : s.engines[k]? = some e) : step s = cmdWrite k e w { s with schedule := sched, host := rest } := by
  rw [step_of_nextMove (State.nextMove_of_schedule hsched), State.useMove_of_schedule hsched]
  simp [runEvent, hostStep, hhost, hostOp, he]

/-- A CMD write to a BUSY engine is an overrun, whatever the word (60_exceptions.md R166). -/
theorem cmdWrite_of_busy {e : Engine} (hp : e.phase ≠ .idle) (k : Nat) (w : Word) (s : State) :
    cmdWrite k e w s = .next (({ s with port := k } : State).setEngine k e.setOverrun) := by
  simp [cmdWrite, hp]

/-- A CMD write of a word that does not decode is dropped as illegal (60_exceptions.md R165). -/
theorem cmdWrite_of_illegal {e : Engine} {w : Word} {s : State} (hp : e.phase = .idle)
    (hw : (decode s.build w).toOption = none) (k : Nat) :
    cmdWrite k e w s = .next (({ s with port := k } : State).setEngine k e.setIllegal) := by
  cases hd : decode s.build w with
  | error r => simp [cmdWrite, Engine.busy, hp, hd]
  | ok i => simp [hd, Except.toOption] at hw

/-- A CMD write of a word that decodes runs the command (30_encoding.md R80). -/
theorem cmdWrite_of_decode {e : Engine} {w : Word} {s : State} {i : Instr} (hp : e.phase = .idle)
    (hd : decode s.build w = .ok i) (k : Nat) : cmdWrite k e w s = exec i { s with port := k } := by
  simp [cmdWrite, Engine.busy, hp, hd]

/-- Settles O10: the step is the CMD write, and the engine is BUSY. -/
theorem busyWriteIsOverrun : Obligations.BusyWriteIsOverrun := fun _ k w _ _ _ hsched hhost he hp =>
  (step_cmdWrite hsched hhost he).trans (cmdWrite_of_busy hp k w _)

/-- Settles O11: the step is the CMD write, and the word does not decode. -/
theorem illegalWriteIsDropped : Obligations.IllegalWriteIsDropped :=
  fun s k _ rest sched _ hsched hhost he hp hw => (step_cmdWrite hsched hhost he).trans
    (cmdWrite_of_illegal (s := { s with schedule := sched, host := rest }) hp hw k)

/-- Settles O5: the step is the CMD write, and the word decodes. -/
theorem stepRunsDecodedCommand : Obligations.StepRunsDecodedCommand :=
  fun s k _ rest sched _ _ hsched hhost he hp hd => (step_cmdWrite hsched hhost he).trans
    (cmdWrite_of_decode (s := { s with schedule := sched, host := rest }) hp hd k)

/-! ### The START field of CALC_OFS -/

/-- When CALC_OFS answers a next state, and which one: an overrun, or acceptance with `ofs < len`. The right side does
not name START. -/
theorem exec_calculateOfs_eq_next_iff {s t : State} {ofs start len : Byte} :
    exec (.calculateOfs ofs start len) s = .next t ↔ ∃ e, s.engines[s.port]? = some e ∧
      (e.phase ≠ .idle ∧ t = s.setEngine s.port e.setOverrun ∨
        e.phase = .idle ∧ ofs.toNat < len.toNat ∧ t = s.setEngine s.port (e.startCalc s.build 0x00#8 ofs len)) := by
  constructor
  · intro h
    rcases State.command_cases (show s.command _ _ = .next t from h) with
      ⟨-, hr⟩ | ⟨e, he, ⟨hp, hr⟩ | ⟨hp, -, hr⟩ | ⟨-, hwf, -⟩⟩
    · cases hr
    · cases hr; exact ⟨e, he, .inl ⟨hp, rfl⟩⟩
    · split at hr
      · cases hr
      · next hlt => cases hr; exact ⟨e, he, .inr ⟨hp, Nat.lt_of_not_le hlt, rfl⟩⟩
    · cases hwf
  · rintro ⟨e, he, ⟨hp, rfl⟩ | ⟨hp, hlt, rfl⟩⟩
    · change s.command _ _ = _
      simp [State.command, he, hp]
    · exact exec_calculateOfs_of_idle ⟨he, hp⟩ start hlt

/-- Settles O17: the build has CALC_OFS with any START, and what it answers does not name START. -/
theorem calcOfsIgnoresStart : Obligations.CalcOfsIgnoresStart := fun _ _ _ _ _ _ =>
  ⟨decodeOfEncode _ _ rfl, fun h => exec_calculateOfs_eq_next_iff.mpr (exec_calculateOfs_eq_next_iff.mp h)⟩

/-! ### POLL -/

/-- A POLL that sees the awaited value ends (30_encoding.md R92). -/
theorem hostOp_poll_seen {s : State} {k : Nat} {e : Engine} {r : BitVec 3} {mask value : Word}
    (he : s.engines[k]? = some e) (h : e.readReg s.build k r &&& mask = value) :
    hostOp (.poll k r mask value) s = .next s := by
  simp [hostOp, he, h]

/-- A POLL that does not see the awaited value is the host's next transaction again (30_encoding.md R92). -/
theorem hostOp_poll_not_seen {s : State} {k : Nat} {e : Engine} {r : BitVec 3} {mask value : Word}
    (he : s.engines[k]? = some e) (h : e.readReg s.build k r &&& mask ≠ value) :
    hostOp (.poll k r mask value) s = .next { s with host := .poll k r mask value :: s.host } := by
  simp [hostOp, he, h]

/-- Settles O30: the POLL is taken from the host's list, and put back unless it has seen the value. -/
theorem pollRepeatsUntilSeen : Obligations.PollRepeatsUntilSeen := by
  intro s k e r mask value rest hhost he
  have hstep : hostStep s = hostOp (.poll k r mask value) { s with host := rest } := by simp [hostStep, hhost]
  rw [hstep]
  refine ⟨fun hne => ?_, fun heq => hostOp_poll_seen (s := { s with host := rest }) he heq⟩
  rw [hostOp_poll_not_seen (s := { s with host := rest }) he hne, ← hhost]

end Sys2Proof.Machine

namespace Sys2Proof.Machine

/-! ### The polynomial transform -/

/-- A round is the shift, and XOR with the polynomial exactly where bit 7 was set (40_poly_transform.md R100). -/
theorem polyRound_eq (c : Byte) : polyRound c = (c <<< 1) ^^^ (if c.getLsbD 7 then poly else 0x00#8) := by
  unfold polyRound
  split
  · rfl
  · rw [BitVec.xor_zero]

/-- A round is linear over XOR: the shift is, and two polynomials cancel. -/
theorem polyRound_xor (a b : Byte) : polyRound (a ^^^ b) = polyRound a ^^^ polyRound b := by
  have hpoly : ∀ p q : Bool, (if p ^^ q then poly else 0x00#8) =
      (if p then poly else 0x00#8) ^^^ (if q then poly else 0x00#8) := by decide
  simp only [polyRound_eq, BitVec.shiftLeft_xor_distrib, BitVec.getLsbD_xor, hpoly]
  ac_rfl

/-- Any number of rounds is linear over XOR. -/
theorem polyRounds_xor (n : Nat) (a b : Byte) : polyRounds n (a ^^^ b) = polyRounds n a ^^^ polyRounds n b := by
  induction n generalizing a b with
  | zero => rfl
  | succ n ih => simp only [polyRounds, polyRound_xor, ih]

/-- Settles O46: every round is linear; the values are computed. -/
theorem transformIsLinear : Obligations.TransformIsLinear :=
  ⟨polyRounds_xor 8, by decide⟩

/-- The polynomial is odd and the shift leaves bit 0 clear, so bit 0 of a round tells the bit 7 it shifted out. -/
theorem polyRound_getLsbD_zero (c : Byte) : (polyRound c).getLsbD 0 = c.getLsbD 7 := by
  have hpoly : ∀ p : Bool, (if p then poly else 0x00#8).getLsbD 0 = p := by decide
  rw [polyRound_eq, BitVec.getLsbD_xor, hpoly]
  simp

/-- A round loses nothing: bit 0 of its result gives bit 7 back, and then the shift gives the other bits. -/
theorem polyRound_injective : Function.Injective polyRound := fun a b h => by
  have htop : a.getLsbD 7 = b.getLsbD 7 := by rw [← polyRound_getLsbD_zero, h, polyRound_getLsbD_zero]
  have hshift : a <<< 1 = b <<< 1 := by
    rw [polyRound_eq, polyRound_eq, htop] at h
    exact (BitVec.xor_left_inj _).mp h
  ext i hi
  by_cases h7 : i = 7
  · subst h7
    exact htop
  · have hbit : (a <<< 1).getLsbD (i + 1) = (b <<< 1).getLsbD (i + 1) := by rw [hshift]
    simpa [show i + 1 < 8 by omega] using hbit

/-- No number of rounds loses anything. -/
theorem polyRounds_injective (n : Nat) : Function.Injective (polyRounds n) := by
  induction n with
  | zero => exact fun _ _ h => h
  | succ n ih => exact ih.comp polyRound_injective

/-- Settles O47: every round is injective. -/
theorem transformIsInjective : Obligations.TransformIsInjective := fun _ _ h => polyRounds_injective 8 h

/-! ### XFORM with intact tables -/

/-- Settles O48: under SPEED the entry is written, and what is written is generated; under SIZE it is the definition. -/
theorem xformByIsXform : Obligations.XformByIsXform := by
  intro b lut c x htable
  cases hb : b.strategy with
  | speed =>
    obtain ⟨hfull, hgen⟩ := htable hb
    obtain ⟨y, hy⟩ := Option.isSome_iff_exists.mp (hfull _ (c ^^^ x).isLt)
    have hxform : xformBy b lut c x = some y := (xformBy_speed hb lut c x).trans hy
    rw [hxform, xformBy_generated hgen hxform]
  | size => exact xformBy_size hb lut c x

/-- XFORM of a READY engine whose table is generated is the transform (40_poly_transform.md R103). -/
theorem Engine.xformBy_of_generated {b : Build} {e : Engine} (h : e.Inv b) (hr : e.ready = true)
    (hg : TableGenerated e.lut) (c x : Byte) : xformBy b e.lut c x = some (xform c x) :=
  xformByIsXform b e.lut c x fun hb => ⟨(Engine.table_of_ready h hr).1 hb, hg⟩

/-- Where XFORM is the transform, its fold is the fold of the transform. -/
theorem foldBy_eq_foldXform {b : Build} {lut : Memory} (h : ∀ c x, xformBy b lut c x = some (xform c x)) (c : Byte)
    (bytes : List Byte) : foldBy b lut c bytes = some (foldXform c bytes) := by
  induction bytes generalizing c with
  | nil => rfl
  | cons x xs ih =>
    rw [foldBy_cons, h]
    exact ih (xform c x)

/-! ### A calculate run to its completion step -/

/-- A running calculate's engine after all its steps, where the checksum is `c` (42_calculate.md R124). -/
def Engine.completed (e : Engine) (c : Byte) : Engine :=
  { e with c := c, idx := e.endIdx, result := c, phase := .idle }

/-- The byte steps of a running calculate and its completion step fold the bytes left into RESULT, and change no more of
the machine than that engine (42_calculate.md R125 to R127). -/
theorem State.Calculating.runEngine_completes {k n : Nat} {s : State} {e : Engine} (h : s.Calculating k e n) :
    ∃ c, foldBy s.build e.lut e.c (s.buffer e.abase e.idx.toNat n) = some c ∧
      runEngine k (n + 1) s = .next (s.setEngine k (e.completed c)) := by
  induction n generalizing s e with
  | zero =>
    have hend : e.idx = e.endIdx := BitVec.eq_of_toNat_eq h.left
    refine ⟨e.c, rfl, (runEngine_succ h.complete 0).trans ?_⟩
    rw [Engine.completed, ← hend, runEngine]
  | succ n ih =>
    obtain ⟨c, hc, hstep, hnext⟩ := h.byte
    obtain ⟨c', hfold, hrun⟩ := ih hnext
    have hidx := Engine.idx_step (e := e) (by have := h.left; omega)
    refine ⟨c', ?_, ?_⟩
    · rw [State.buffer_succ, foldBy_cons, hc]
      simpa [hidx] using hfold
    · rw [runEngine_succ hstep, hrun, State.setEngine_setEngine]
      rfl

/-- A calculate accepted from `c` and the byte `idx` on, with `n` bytes to read, ends after `n + 1` steps of its engine
with the fold of those bytes in RESULT. -/
theorem runEngine_startCalc_completes {s : State} (hs : s.Inv) {e : Engine} (hidle : s.IdlePort e) (c : Byte)
    {idx endIdx : Byte} {n : Nat} (hn : idx.toNat + n = endIdx.toNat) (ha : s.AdmitsBuffer e.base idx.toNat n) :
    ∃ c', foldBy s.build e.lut c (s.buffer e.base idx.toNat n) = some c' ∧
      runEngine s.port (n + 1) (s.setEngine s.port (e.startCalc s.build c idx endIdx)) =
        .next (s.setEngine s.port ((e.startCalc s.build c idx endIdx).completed c')) := by
  obtain ⟨he, hp⟩ := hidle
  obtain ⟨-, -, hbase, -⟩ := State.engine_inv hs he
  obtain ⟨c', hfold, hrun⟩ := (State.startCalc_calculating hs he hp c hn ha).runEngine_completes
  rw [Engine.startCalc_abase, addrBits_eq_self hbase] at hfold
  rw [State.setEngine_setEngine] at hrun
  exact ⟨c', hfold, hrun⟩

/-- Settles O53: the run folds by XFORM, which is the transform; the three folds differ in the first step only, which is
`T(START)` in each. -/
theorem calcClosedForm : Obligations.CalcClosedForm := by
  intro s e start len hs htables hidle ha
  have hi := State.engine_inv hs hidle.1
  have hready := Engine.ready_of_not_gen hi (by simp [hidle.2])
  have hxform := Engine.xformBy_of_generated hi hready (htables e (List.mem_of_getElem? hidle.1))
  have hfirst : xform 0x00#8 start = polyT start := congrArg polyT BitVec.zero_xor
  have hlast : xform start 0x00#8 = polyT start := congrArg polyT BitVec.xor_zero
  obtain ⟨c, hfold, hrun⟩ :=
    runEngine_startCalc_completes hs hidle (polyT start) (idx := 0x00#8) (Nat.zero_add _) ha
  rw [foldBy_eq_foldXform hxform] at hfold
  have hresult : c = foldXform (polyT start) (s.buffer e.base 0 len.toNat) := (Option.some.inj hfold).symm
  refine ⟨_, _, exec_calculate_of_idle hidle len (hfirst ▸ hxform 0x00#8 start), hrun, hresult, ?_, ?_⟩
  · exact hresult.trans (congrArg (foldXform · _) hfirst.symm)
  · exact hresult.trans (congrArg (foldXform · _) hlast.symm)

end Sys2Proof.Machine

namespace Sys2Proof.Machine

/-! ### LUT generation -/

/-- GIDX is 256 after a step exactly where the step writes the last entry. -/
theorem Engine.gidx_succ_eq_iff (e : Engine) : e.gidx + 1#9 = 256#9 ↔ e.gidx.toNat = 255 := by
  bv_omega

@[simp] theorem Engine.generate_gidx (e : Engine) : e.generate.gidx = e.gidx + 1#9 := by
  simp only [Engine.generate]; split <;> rfl

/-- A generation step reaches no register but GIDX, READY and PHASE (41_lut_gen.md R111). -/
theorem Engine.generate_frame (e : Engine) :
    { e.generate with lut := e.lut, gidx := e.gidx, ready := e.ready, phase := e.phase } = e := by
  simp only [Engine.generate]; split <;> rfl

/-- The step that writes LUT[255] ends construction. -/
theorem Engine.generate_of_last {e : Engine} (h : e.gidx.toNat = 255) :
    e.generate.ready = true ∧ e.generate.phase = .idle := by
  simp [Engine.generate, e.gidx_succ_eq_iff.mpr h]

/-- Every other generation step leaves READY and PHASE. -/
theorem Engine.generate_of_not_last {e : Engine} (h : e.gidx.toNat ≠ 255) :
    e.generate.ready = e.ready ∧ e.generate.phase = e.phase := by
  simp [Engine.generate, mt e.gidx_succ_eq_iff.mp h]

/-- What each entry reads as after a generation step: `T(GIDX)` at GIDX, as before elsewhere. -/
theorem Engine.read_generate_lut {e : Engine} (h : e.gidx.toNat < 256) (a : Nat) :
    Memory.read e.generate.lut a =
      if a = e.gidx.toNat then some (polyT (BitVec.ofNat 8 e.gidx.toNat)) else Memory.read e.lut a := by
  obtain ⟨hentry, -⟩ := Engine.gidx_step h
  rw [Engine.generate_lut, Memory.read_write, hentry, BitVec.ofNat_toNat]

/-- The step of an engine in GEN is the generation step. -/
theorem engineStep_gen {s : State} {k : Nat} {e : Engine} (he : s.engines[k]? = some e) (hp : e.phase = .gen) :
    engineStep k s = .next (s.setEngine k e.generate) :=
  engineStep_of_enabled he (State.enabledStep_gen hp)

/-- Settles O21: the step replaces the engine by `generate` of it, whose table, registers and frame are said above. -/
theorem generationStep : Obligations.GenerationStep := by
  intro s k e he hp hlt
  obtain ⟨-, hcount⟩ := Engine.gidx_step hlt
  refine ⟨e.generate, engineStep_gen he hp, ?_, fun a ha => ?_, ?_, Engine.generate_of_last, fun hne => ?_,
    e.generate_frame⟩
  · rw [Engine.read_generate_lut hlt, if_pos rfl]
  · rw [Engine.read_generate_lut hlt, if_neg ha]
  · rw [Engine.generate_gidx, hcount]
  · obtain ⟨hready, hphase⟩ := Engine.generate_of_not_last hne
    exact ⟨hready, hphase.trans hp⟩

/-- The entries below `n` are the generated ones. -/
def GeneratedBelow (n : Nat) (lut : Memory) : Prop :=
  ∀ i < n, Memory.read lut i = some (polyT (BitVec.ofNat 8 i))

/-- A generation step fills the next entry. -/
theorem GeneratedBelow.generate {e : Engine} (h : GeneratedBelow e.gidx.toNat e.lut) (hlt : e.gidx.toNat < 256) :
    GeneratedBelow (e.gidx.toNat + 1) e.generate.lut := by
  intro i hi
  rw [Engine.read_generate_lut hlt]
  split
  · next heq => rw [heq]
  · exact h i (by omega)

/-- An engine that has made `n` generation steps since reset and has more to make. -/
structure Engine.Generating (e : Engine) (n : Nat) : Prop where
  phase : e.phase = .gen
  ready : e.ready = false
  gidx : e.gidx.toNat = n
  table : GeneratedBelow n e.lut
  result : e.result = 0x00#8

/-- Under SPEED an engine is generating after reset (10_state.md R40). -/
theorem Engine.reset_generating {b : Build} (hb : b.strategy = .speed) : (Engine.reset b).Generating 0 where
  phase := by simp [hb]
  ready := by simp [hb]
  gidx := rfl
  table := nofun
  result := rfl

/-- Every generation step but the last leaves the engine generating. -/
theorem Engine.Generating.generate {e : Engine} {n : Nat} (h : e.Generating n) (hn : n < 255) :
    e.generate.Generating (n + 1) := by
  obtain ⟨hp, hr, rfl, ht, hres⟩ := h
  obtain ⟨hready, hphase⟩ := Engine.generate_of_not_last hn.ne
  have hlt : e.gidx.toNat < 256 := by omega
  obtain ⟨-, hcount⟩ := Engine.gidx_step hlt
  exact ⟨hphase.trans hp, hready.trans hr, e.generate_gidx ▸ hcount, ht.generate hlt, e.generate_result.trans hres⟩

/-- Up to 255 generation steps after reset the engine is generating. -/
theorem Engine.iterate_generate_generating {e : Engine} (h : e.Generating 0) {n : Nat} (hn : n < 256) :
    (Engine.generate^[n] e).Generating n := by
  induction n with
  | zero => exact h
  | succ n ih =>
    rw [Function.iterate_succ_apply']
    exact (ih (by omega)).generate (by omega)

/-- Steps of `E[k]` that each start in GEN are generation steps, and reach no other part of the machine. -/
theorem runEngine_generate {k n : Nat} {s : State} {e : Engine} (he : s.engines[k]? = some e)
    (hp : ∀ m < n, (Engine.generate^[m] e).phase = .gen) :
    runEngine k n s = .next (s.setEngine k (Engine.generate^[n] e)) := by
  induction n generalizing s e with
  | zero => exact congrArg Host.Outcome.next (State.setEngine_self he).symm
  | succ n ih =>
    rw [runEngine_succ (engineStep_gen he (hp 0 n.succ_pos)),
      ih (State.setEngine_get_self he _) fun m hm => hp (m + 1) (Nat.succ_lt_succ hm),
      State.setEngine_setEngine, Function.iterate_succ_apply]

/-- The last generation step leaves the whole table, READY and the engine idle (41_lut_gen.md R112). -/
theorem Engine.Generating.generate_of_last {e : Engine} (h : e.Generating 255) :
    e.generate.ready = true ∧ e.generate.phase = .idle ∧ e.generate.gidx = 256#9 ∧
      (∀ i : Byte, Memory.read e.generate.lut i.toNat = some (polyT i)) ∧ e.generate.result = 0x00#8 := by
  obtain ⟨-, -, hgidx, htable, hresult⟩ := h
  obtain ⟨hready, hphase⟩ := Engine.generate_of_last hgidx
  rw [← hgidx] at htable
  refine ⟨hready, hphase, ?_, fun i => ?_, e.generate_result.trans hresult⟩
  · rw [Engine.generate_gidx]
    exact e.gidx_succ_eq_iff.mpr hgidx
  · have hentry := htable.generate (by omega) i.toNat (by omega)
    rwa [BitVec.ofNat_toNat, BitVec.setWidth_eq] at hentry

/-- Settles O49: 255 steps from reset leave the engine generating, with LUT[255] to write; the next step writes it. -/
theorem generationBuildsTable : Obligations.GenerationBuildsTable := by
  intro b k _ hspeed hk
  have he : (State.resetOf b).engines[k]? = some (Engine.reset b) := by simp [State.resetOf, hk]
  have hgen {n : Nat} (hn : n < 256) : (Engine.generate^[n] (Engine.reset b)).Generating n :=
    Engine.iterate_generate_generating (Engine.reset_generating hspeed) hn
  have hrun {n : Nat} (hn : n ≤ 256) := runEngine_generate (n := n) he fun m hm => (hgen (hm.trans_le hn)).phase
  refine ⟨fun n hn => ⟨_, _, hrun hn.le, State.setEngine_get_self he _, (hgen hn).ready, ?_⟩, _, hrun le_rfl, ?_⟩
  · simp [(hgen hn).phase]
  · rw [Function.iterate_succ_apply']
    exact (hgen (by omega)).generate_of_last

end Sys2Proof.Machine

namespace Sys2Proof.Machine

/-! ### Acceptance of CALC and CALC_OFS, and what a command leaves -/

/-- Settles O14: XFORM(0, START) reads LUT[START], or is T(START), because START XOR 0 is START. -/
theorem calcAccepted : Obligations.CalcAccepted := by
  intro s e start len c hidle hspeed hsize
  refine exec_calculate_of_idle hidle len (xformBy_eq_some ?_ ?_)
  · rwa [BitVec.zero_xor]
  · rwa [BitVec.zero_xor]

/-- Settles O15: the build has CALC_OFS, and `ofs` is below `len`. -/
theorem calcOfsAccepted : Obligations.CalcOfsAccepted := fun _ _ _ start _ hidle hlt =>
  exec_calculateOfs_of_idle hidle start hlt

/-- A command keeps BASE and GIDX (10_state.md R27, R35). -/
theorem CommandEffect.base_gidx {s : State} {e e' : Engine} (h : CommandEffect s e e') :
    e'.base = e.base ∧ e'.gidx = e.gidx := by
  cases h <;> exact ⟨rfl, rfl⟩

/-- A command is dropped, with one status bit set and PHASE kept, or accepted, with PHASE left IDLE and both status bits
kept (60_exceptions.md R165 to R167). -/
theorem CommandEffect.dropped_or_accepted {s : State} {e e' : Engine} (h : CommandEffect s e e') :
    e'.phase = e.phase ∧ ((e.phase ≠ .idle ∧ e'.overrun = true ∧ e'.illegal = e.illegal) ∨
        (e.phase = .idle ∧ e'.illegal = true ∧ e'.overrun = e.overrun)) ∨
      (e.phase = .idle ∧ e'.phase ≠ .idle ∧ e'.illegal = e.illegal ∧ e'.overrun = e.overrun) := by
  cases h with
  | overrun hp => exact .inl ⟨rfl, .inl ⟨hp, rfl, rfl⟩⟩
  | illegal hp => exact .inl ⟨rfl, .inr ⟨hp, rfl, rfl⟩⟩
  | calculate hp => exact .inr ⟨hp, nofun, rfl, rfl⟩
  | calculateOfs hp => exact .inr ⟨hp, nofun, rfl, rfl⟩
  | copy hp => exact .inr ⟨hp, nofun, rfl, rfl⟩
  | testWr hp => exact .inr ⟨hp, nofun, rfl, rfl⟩

/-- An accepted command latches the hidden registers of its own phase only, a dropped one latches none (42_calculate.md
R120, R122, 43_instance_ops.md R141, R144). -/
theorem CommandEffect.latches {s : State} {e e' : Engine} (h : CommandEffect s e e') :
    (e'.phase ≠ .calculate ∨ e'.phase = e.phase →
      e'.abase = e.abase ∧ e'.c = e.c ∧ e'.idx = e.idx ∧ e'.endIdx = e.endIdx) ∧
    (e'.phase ≠ .copy ∨ e'.phase = e.phase → e'.lsrc = e.lsrc) ∧
    (e'.phase ≠ .twr ∨ e'.phase = e.phase → e'.ltidx = e.ltidx ∧ e'.ltval = e.ltval) := by
  cases h with
  | overrun => exact ⟨fun _ => ⟨rfl, rfl, rfl, rfl⟩, fun _ => rfl, fun _ => ⟨rfl, rfl⟩⟩
  | illegal => exact ⟨fun _ => ⟨rfl, rfl, rfl, rfl⟩, fun _ => rfl, fun _ => ⟨rfl, rfl⟩⟩
  | calculate hp => exact ⟨fun h => by simp [hp] at h, fun _ => rfl, fun _ => ⟨rfl, rfl⟩⟩
  | calculateOfs hp => exact ⟨fun h => by simp [hp] at h, fun _ => rfl, fun _ => ⟨rfl, rfl⟩⟩
  | copy hp => exact ⟨fun _ => ⟨rfl, rfl, rfl, rfl⟩, fun h => by simp [hp] at h, fun _ => ⟨rfl, rfl⟩⟩
  | testWr hp => exact ⟨fun _ => ⟨rfl, rfl, rfl, rfl⟩, fun _ => rfl, fun h => by simp [hp] at h⟩

/-- Settles O20: a command replaces the engine behind the port, and nothing else; what it does to that engine is said
above. -/
theorem commandFrame : Obligations.CommandFrame := by
  intro i s t h
  obtain ⟨e, e', he, heff, rfl⟩ := exec_cases h
  obtain ⟨hready, hresult, hlut, -⟩ := heff.frame
  obtain ⟨hbase, hgidx⟩ := heff.base_gidx
  obtain ⟨hcalc, hcopy, htwr⟩ := heff.latches
  exact ⟨e, e', he, State.setEngine_get_self he e', fun j hj => State.setEngine_get_other hj.symm e', by simp,
    hready, hbase, hresult, hlut, hgidx, heff.dropped_or_accepted, hcalc, hcopy, htwr,
    fun _ => ⟨rfl, rfl⟩, rfl, rfl, rfl, rfl, rfl, rfl, rfl⟩

/-! ### The RESULT of CALC and CALC_OFS -/

/-- A calculate with every byte read completes (42_calculate.md R124). -/
theorem engineStep_complete {s : State} {k : Nat} {e : Engine} (he : s.engines[k]? = some e) (hp : e.phase = .calculate)
    (hend : e.idx = e.endIdx) : engineStep k s = .next (s.setEngine k { e with result := e.c, phase := .idle }) :=
  engineStep_of_enabled he (State.enabledStep_complete hp hend)

/-- Settles O23: with IDX at END the completion step is enabled; that IDX is at most END is part of the invariant. -/
theorem completionStep : Obligations.CompletionStep := by
  refine fun s k e he hp => ⟨engineStep_complete he hp, fun hs => ?_⟩
  obtain ⟨-, -, -, -, -, -, -, hidx, -⟩ := State.engine_inv hs he
  exact Nat.not_lt.mpr (hidx hp)

/-- Settles O50: XFORM(0, START) answers in a READY engine, and the accepted calculate runs to its completion. -/
theorem calcResult : Obligations.CalcResult := by
  intro s e start len hs hidle ha
  have hi := State.engine_inv hs hidle.1
  obtain ⟨c, hc⟩ := Engine.xformBy_of_ready hi (Engine.ready_of_not_gen hi (by simp [hidle.2])) 0x00#8 start
  obtain ⟨c', hfold, hrun⟩ := runEngine_startCalc_completes hs hidle c (idx := 0x00#8) (Nat.zero_add _) ha
  refine ⟨_, _, exec_calculate_of_idle hidle len hc, hrun, rfl, ?_, rfl, rfl, rfl, rfl, rfl⟩
  rw [hc]
  exact hfold

/-- Settles O51: the accepted calculate starts from 0 at the byte OFS, and runs to its completion. -/
theorem calcOfsResult : Obligations.CalcOfsResult := by
  intro s e ofs start len hs hidle hlt ha
  obtain ⟨c, hfold, hrun⟩ := runEngine_startCalc_completes hs hidle 0x00#8 (endIdx := len) (by omega) ha
  exact ⟨_, _, exec_calculateOfs_of_idle hidle start hlt, hrun, rfl, hfold, rfl, rfl, rfl, rfl, rfl⟩

/-- Machines with the same data memory and address width have the same buffer at the same ABASE. -/
theorem State.buffer_congr {s₁ s₂ : State} (hw : s₁.build.addrW = s₂.build.addrW) (hmem : s₁.mem = s₂.mem) (a : Word)
    (lo n : Nat) : s₁.buffer a lo n = s₂.buffer a lo n := by
  simp [State.buffer, State.byteAt, elementAddr, hw, hmem]

/-- XFORM of an idle engine is the transform where the tables are intact (40_poly_transform.md R103). -/
theorem State.xformBy_of_idlePort {s : State} {e : Engine} (hs : s.Inv) (ht : s.TablesGenerated) (hidle : s.IdlePort e)
    (c x : Byte) : xformBy s.build e.lut c x = some (xform c x) := by
  have hi := State.engine_inv hs hidle.1
  exact Engine.xformBy_of_generated hi (Engine.ready_of_not_gen hi (by simp [hidle.2]))
    (ht e (List.mem_of_getElem? hidle.1)) c x

/-- Settles O54: in both machines XFORM is the transform and the buffer is the same, so both results are the same fold. -/
theorem strategiesAgree : Obligations.StrategiesAgree := by
  intro s₁ s₂ e₁ e₂ hs₁ hs₂ ht₁ ht₂ hidle₁ hidle₂ hw hmem hbase
  have hbuffer (lo n : Nat) : s₁.buffer e₁.base lo n = s₂.buffer e₂.base lo n :=
    hbase ▸ State.buffer_congr hw hmem e₁.base lo n
  refine ⟨fun start len ha₁ ha₂ => ?_, fun ofs start len hlt ha₁ ha₂ => ?_⟩
  · obtain ⟨t₁, e₁', hexec₁, hrun₁, hresult₁, -⟩ := calcClosedForm s₁ e₁ start len hs₁ ht₁ hidle₁ ha₁
    obtain ⟨t₂, e₂', hexec₂, hrun₂, hresult₂, -⟩ := calcClosedForm s₂ e₂ start len hs₂ ht₂ hidle₂ ha₂
    exact ⟨t₁, t₂, e₁', e₂', hexec₁, hexec₂, hrun₁, hrun₂, by rw [hresult₁, hresult₂, hbuffer]⟩
  · obtain ⟨t₁, e₁', hexec₁, hrun₁, -, hfold₁, -⟩ := calcOfsResult s₁ e₁ ofs start len hs₁ hidle₁ hlt ha₁
    obtain ⟨t₂, e₂', hexec₂, hrun₂, -, hfold₂, -⟩ := calcOfsResult s₂ e₂ ofs start len hs₂ hidle₂ hlt ha₂
    rw [foldBy_eq_foldXform (State.xformBy_of_idlePort hs₁ ht₁ hidle₁), hbuffer] at hfold₁
    rw [foldBy_eq_foldXform (State.xformBy_of_idlePort hs₂ ht₂ hidle₂)] at hfold₂
    exact ⟨t₁, t₂, e₁', e₂', hexec₁, hexec₂, hrun₁, hrun₂, Option.some.inj (hfold₁.symm.trans hfold₂)⟩

/-! ### CALC on the buffer moved past the seed of CALC_OFS -/

/-- A BASE that is moved by `d` addresses, modulo `2^ADDR_W`, names the elements from `d` on (20_memory.md R63). -/
theorem elementAddr_moved {b : Build} {a moved : Word} {d : Nat} (h : moved.toNat = (a.toNat + d) % 2 ^ b.addrW)
    (i : Nat) : elementAddr b moved i = elementAddr b a (d + i) := by
  rw [elementAddr, elementAddr, h, Nat.mod_add_mod, Nat.add_assoc]

/-- An idle engine may get any BASE of `ADDR_W` bits (10_state.md R27). -/
theorem State.setBase_inv {s : State} (hs : s.Inv) {e : Engine} (hidle : s.IdlePort e) {a : Word}
    (ha : a.toNat < 2 ^ s.build.addrW) : (s.setEngine s.port { e with base := a }).Inv := by
  obtain ⟨he, hp⟩ := hidle
  have hinv := Engine.writeReg_inv (State.engine_inv hs he) 2#3 a
  rw [Engine.writeReg_toBase, addrBits_eq_self ha] at hinv
  exact State.setEngine_inv hs he hinv id fun hcopy => by simp [hp] at hcopy

/-- Settles O55: the first byte step of CALC_OFS is XFORM(0, data[ofs]), which is how the other command starts, and the
bytes after it are those of the moved buffer. -/
theorem offsetVariantConsistency : Obligations.OffsetVariantConsistency := by
  intro s e ofs start len moved hs _ hidle hlt ha hmoved
  obtain ⟨n, hn⟩ : ∃ n, len.toNat - ofs.toNat = n + 1 := Nat.exists_eq_succ_of_ne_zero (by omega)
  have hlen : (len - ofs - 1#8).toNat = n := by bv_omega
  rw [hn] at ha ⊢
  have haddr := elementAddr_moved (d := ofs.toNat + 1) hmoved
  have hs' := State.setBase_inv hs hidle (hmoved ▸ Nat.mod_lt _ (Nat.two_pow_pos _))
  have ha' : s.AdmitsBuffer moved 0 (len - ofs - 1#8).toNat := fun j hj => by
    rw [haddr, Nat.zero_add]
    exact ha.tail j (hlen ▸ hj)
  have hbuffer : s.buffer moved 0 n = s.buffer e.base (ofs.toNat + 1) n := by simp [State.buffer, haddr]
  obtain ⟨t₁, e₁, hexec₁, hrun₁, -, hfold₁, -⟩ := calcOfsResult s e ofs start len hs hidle hlt (hn ▸ ha)
  obtain ⟨t₂, e₂, hexec₂, hrun₂, -, hfold₂, -⟩ := calcResult _ { e with base := moved }
    (s.byteAt (elementAddr s.build e.base ofs.toNat)) (len - ofs - 1#8) hs'
    ⟨State.setEngine_get_self hidle.1 _, hidle.2⟩ ha'
  rw [hn, State.buffer_succ, foldBy_cons, ← hbuffer] at hfold₁
  rw [hlen] at hfold₂ hrun₂
  refine ⟨t₁, t₂, e₁, e₂, hexec₁, hexec₂, hn ▸ hrun₁, ?_, Option.some.inj (hfold₁.symm.trans hfold₂)⟩
  simpa using hrun₂

/-! ### A calculate after a TEST_WR -/

/-- TEST_WR at an idle engine of a SPEED build with the hook is accepted (43_instance_ops.md R144). -/
theorem exec_testWr_of_idle {s : State} {e : Engine} (hidle : s.IdlePort e) (hhook : s.build.testHook = true)
    (hspeed : s.build.strategy = .speed) (tidx tval : Byte) :
    exec (.testWr tidx tval) s =
      .next (s.setEngine s.port { e with ltidx := tidx, ltval := tval, phase := .twr }) :=
  State.command_accept hidle (by simp [Instr.wf, hhook, hspeed]) _

/-- The engine after an accepted TEST_WR and its execute step (43_instance_ops.md R144, R145). -/
def Engine.testWritten (e : Engine) (tidx tval : Byte) : Engine :=
  { e with lut := Memory.write e.lut tidx.toNat tval, ltidx := tidx, ltval := tval, phase := .idle }

/-- The step of an engine that has accepted TEST_WR writes the entry (43_instance_ops.md R145). -/
theorem engineStep_testWr {s : State} {k : Nat} {e : Engine} (he : s.engines[k]? = some e) (tidx tval : Byte) :
    engineStep k (s.setEngine k { e with ltidx := tidx, ltval := tval, phase := .twr }) =
      .next (s.setEngine k (e.testWritten tidx tval)) := by
  rw [engineStep_of_enabled (st := .twr) (State.setEngine_get_self he _) rfl, EngineStep.run, twrStep,
    State.setEngine_setEngine, Engine.testWritten]

/-- A CALC with no data completes in its first step, with XFORM(0, START) as RESULT (42_calculate.md R125). -/
theorem engineStep_startCalc_noData {s : State} {k : Nat} {e : Engine} (he : s.engines[k]? = some e) (c : Byte) :
    engineStep k (s.setEngine k (e.startCalc s.build c 0x00#8 0x00#8)) =
      .next (s.setEngine k ((e.startCalc s.build c 0x00#8 0x00#8).completed c)) := by
  rw [engineStep_complete (State.setEngine_get_self he _) rfl rfl, State.setEngine_setEngine]
  rfl

/-- Settles O58: CALC with no data reads the written entry at acceptance and shows it in its completion step. -/
theorem testWrShowsInResult : Obligations.TestWrShowsInResult := by
  intro s e tidx tval hidle hhook hspeed
  have hidle' : (s.setEngine s.port (e.testWritten tidx tval)).IdlePort (e.testWritten tidx tval) :=
    ⟨State.setEngine_get_self hidle.1 _, rfl⟩
  have hstart : xformBy s.build (e.testWritten tidx tval).lut 0x00#8 tidx = some tval := by
    rw [xformBy_speed hspeed, BitVec.zero_xor, Engine.testWritten, Memory.read_write_same]
  exact ⟨_, _, _, _, _, exec_testWr_of_idle hidle hhook hspeed tidx tval, engineStep_testWr hidle.1 tidx tval,
    exec_calculate_of_idle hidle' 0x00#8 hstart, engineStep_startCalc_noData hidle'.1 tval,
    State.setEngine_get_self hidle'.1 _, rfl, rfl, fun a ha => Memory.read_write_other e.lut ha tval⟩

end Sys2Proof.Machine

namespace Sys2Proof.Machine

/-! ### COPY and its execute step -/

/-- A COPY that the build has, at an idle engine, is accepted or illegal by READY of its source (43_instance_ops.md
R141). -/
theorem exec_copy_of_idle {s : State} {e source : Engine} {src : Byte} (hidle : s.IdlePort e)
    (hlt : src.toNat < s.build.nInst) (hsource : s.engines[src.toNat]? = some source) :
    exec (.copy src) s =
      if source.ready then .next (s.setEngine s.port { e with lsrc := src, phase := .copy })
      else .next (s.setEngine s.port e.setIllegal) := by
  refine (State.command_accept hidle (by simp [Instr.wf, hlt]) _).trans ?_
  rw [hsource]

/-- Settles O18: the build has the COPY, and the source is READY. -/
theorem copyAccepted : Obligations.CopyAccepted := fun _ _ _ _ hidle hlt hsource hready =>
  (exec_copy_of_idle hidle hlt hsource).trans (if_pos hready)

/-- Settles O12: the build has the COPY, and the source is not READY. -/
theorem copyFromUnreadyIsIllegal : Obligations.CopyFromUnreadyIsIllegal := fun _ _ _ _ hidle hlt hsource hready =>
  (exec_copy_of_idle hidle hlt hsource).trans (if_neg (by simp [hready]))

/-- Under SPEED a READY engine has a full table (10_state.md R25, R31). -/
theorem State.tableFull_of_ready {s : State} (hs : s.Inv) (hspeed : s.build.strategy = .speed) {k : Nat} {e : Engine}
    (he : s.engines[k]? = some e) (hready : e.ready = true) : TableFull e.lut :=
  (Engine.table_of_ready (State.engine_inv hs he) hready).1 hspeed

theorem State.enabledStep_copy {s : State} {e : Engine} (hp : e.phase = .copy) : s.enabledStep e = some .copy := by
  simp [State.enabledStep, hp]

/-- Under SPEED and from another instance the copy step takes the source's table, if that is full (43_instance_ops.md
R142). -/
theorem engineStep_copy_other {s : State} {k : Nat} {e source : Engine} (he : s.engines[k]? = some e)
    (hp : e.phase = .copy) (hspeed : s.build.strategy = .speed) (hne : e.lsrc.toNat ≠ k)
    (hsource : s.engines[e.lsrc.toNat]? = some source) (hfull : TableFull source.lut) :
    engineStep k s = .next (s.setEngine k { e with lut := source.lut, phase := .idle }) := by
  rw [engineStep_of_enabled he (State.enabledStep_copy hp)]
  simp [EngineStep.run, copyStep, hspeed, hne, hsource, firstUnwritten_eq_none.mpr hfull]

/-- Under SIZE, or from the engine itself, the copy step leaves the table (43_instance_ops.md R142). -/
theorem engineStep_copy_keeps {s : State} {k : Nat} {e : Engine} (he : s.engines[k]? = some e) (hp : e.phase = .copy)
    (h : ¬ (s.build.strategy = .speed ∧ e.lsrc.toNat ≠ k)) :
    engineStep k s = .next (s.setEngine k { e with phase := .idle }) :=
  (engineStep_of_enabled he (State.enabledStep_copy hp)).trans (if_neg h)

/-- Settles O24: the two branches of the copy step; the invariant gives the first one a READY source, whose table is
full. (`copyStep` is the model's own name.) -/
theorem copyStep_takes_source_table : Obligations.CopyStep := by
  intro s k e hs he hp
  by_cases hc : s.build.strategy = .speed ∧ e.lsrc.toNat ≠ k
  · obtain ⟨source, hsource, hready⟩ := Option.map_eq_some_iff.mp (State.copySourceReady_of_get hs he hp)
    obtain ⟨hspeed, hne⟩ := hc
    have hfull := State.tableFull_of_ready hs hspeed hsource hready
    refine ⟨_, engineStep_copy_other he hp hspeed hne hsource hfull, rfl, fun _ _ => ⟨source, hsource, fun _ => rfl⟩,
      fun h => ?_, rfl⟩
    simp [hspeed, hne] at h
  · exact ⟨_, engineStep_copy_keeps he hp hc, rfl, fun hspeed hne => absurd ⟨hspeed, hne⟩ hc, fun _ => rfl, rfl⟩

/-! ### TEST_WR and its execute step -/

/-- Settles O19: a SPEED build with the hook has TEST_WR. -/
theorem testWrAccepted : Obligations.TestWrAccepted := fun _ _ tidx tval hidle hhook hspeed =>
  exec_testWr_of_idle hidle hhook hspeed tidx tval

theorem State.enabledStep_twr {s : State} {e : Engine} (hp : e.phase = .twr) : s.enabledStep e = some .twr := by
  simp [State.enabledStep, hp]

/-- Settles O25: the step writes the entry LTIDX of the table, and a write leaves every other entry. -/
theorem testWrStep : Obligations.TestWrStep := fun _ _ e he hp =>
  ⟨_, engineStep_of_enabled he (State.enabledStep_twr hp), Memory.read_write_same e.lut e.ltidx.toNat e.ltval,
    fun _ ha => Memory.read_write_other e.lut ha e.ltval, rfl, rfl, rfl, rfl⟩

/-! ### Two engines after a COPY -/

/-- A step of another engine leaves an engine as it was (60_exceptions.md R174). -/
theorem engineStep_get_other {j k : Nat} {u v : State} {e : Engine} (hjk : j ≠ k) (he : u.engines[j]? = some e)
    (h : engineStep k u = .next v) : v.engines[j]? = some e :=
  ((engineStepTouchesItselfOnly k u v h).1 j hjk).trans he

/-- A TEST_WR and its execute step write one entry of the table of the engine behind the port, and leave another engine
as it was (43_instance_ops.md R144, R145). -/
theorem testWr_writes_own_table {u : State} {x y : Engine} {j : Nat} (hidle : u.IdlePort x)
    (hhook : u.build.testHook = true) (hspeed : u.build.strategy = .speed) (hj : u.port ≠ j)
    (hy : u.engines[j]? = some y) (tidx tval : Byte) :
    ∃ v w x', exec (.testWr tidx tval) u = .next v ∧ engineStep u.port v = .next w ∧
      w.engines[u.port]? = some x' ∧ Memory.read x'.lut tidx.toNat = some tval ∧ w.engines[j]? = some y :=
  ⟨_, _, _, exec_testWr_of_idle hidle hhook hspeed tidx tval, engineStep_testWr hidle.1 tidx tval,
    State.setEngine_get_self hidle.1 _, Memory.read_write_same x.lut tidx.toNat tval,
    (State.setEngine_get_other hj _).trans hy⟩

/-- The engine after an accepted COPY from another instance and its execute step (43_instance_ops.md R141, R142). -/
def Engine.copiedFrom (e source : Engine) (src : Byte) : Engine :=
  { e with lsrc := src, lut := source.lut, phase := .idle }

/-- The step of an engine that has accepted COPY from another instance takes that instance's table
(43_instance_ops.md R142). -/
theorem engineStep_accepted_copy {s : State} {k : Nat} {e source : Engine} {src : Byte} (he : s.engines[k]? = some e)
    (hspeed : s.build.strategy = .speed) (hne : src.toNat ≠ k) (hsource : s.engines[src.toNat]? = some source)
    (hfull : TableFull source.lut) :
    engineStep k (s.setEngine k { e with lsrc := src, phase := .copy }) =
      .next (s.setEngine k (e.copiedFrom source src)) := by
  have hsource' := (State.setEngine_get_other hne.symm { e with lsrc := src, phase := .copy }).trans hsource
  rw [engineStep_copy_other (State.setEngine_get_self he _) rfl hspeed hne hsource' hfull, State.setEngine_setEngine,
    Engine.copiedFrom]

/-- Settles O57: the destination holds the source's table as a value of its own, so a step or a TEST_WR of one engine
replaces that engine and no other. -/
theorem copyIsDeep : Obligations.CopyIsDeep := by
  intro s e source src hs hspeed hidle hlt hne hsource hready
  have hfull := State.tableFull_of_ready hs hspeed hsource hready
  have hcopied := State.setEngine_get_self hidle.1 (e.copiedFrom source src)
  have hsource' := (State.setEngine_get_other hne.symm (e.copiedFrom source src)).trans hsource
  refine ⟨_, e.copiedFrom source src, copyAccepted s e source src hidle hlt hsource hready,
    engineStep_accepted_copy hidle.1 hspeed hne hsource hfull, rfl, rfl, fun _ => rfl,
    fun _ _ => engineStep_get_other hne.symm, fun _ _ => engineStep_get_other hne,
    fun hhook tidx tval => ⟨?_, fun hp => ?_⟩⟩
  · exact testWr_writes_own_table (u := s.setEngine s.port _) ⟨hcopied, rfl⟩ hhook hspeed hne.symm hsource' tidx tval
  · exact testWr_writes_own_table (u := { s.setEngine s.port _ with port := src.toNat }) ⟨hsource', hp⟩ hhook hspeed
      hne hcopied tidx tval

end Sys2Proof.Machine

namespace Sys2Proof.Machine

/-! ### The order of the conditions on a command -/

/-- Every command is received by `State.command`; the commands differ in what their acceptance does (60_exceptions.md
R167). -/
theorem exec_eq_command (i : Instr) (s : State) : ∃ accept, exec i s = s.command i accept := by
  cases i <;> exact ⟨_, rfl⟩

/-- A BUSY engine drops every command as an overrun, whether or not the build has it (60_exceptions.md R166, R167). -/
theorem exec_of_busy {s : State} {e : Engine} (he : s.engines[s.port]? = some e) (hp : e.phase ≠ .idle) (i : Instr) :
    exec i s = .next (s.setEngine s.port e.setOverrun) := by
  obtain ⟨accept, hexec⟩ := exec_eq_command i s
  rw [hexec]
  simp [State.command, he, hp]

/-- An idle engine drops as illegal a command that the build does not have (60_exceptions.md R165, R167). -/
theorem exec_of_not_wf {s : State} {e : Engine} {i : Instr} (hidle : s.IdlePort e) (hwf : i.wf s.build = false) :
    exec i s = .next (s.setEngine s.port e.setIllegal) := by
  obtain ⟨he, hp⟩ := hidle
  obtain ⟨accept, hexec⟩ := exec_eq_command i s
  rw [hexec]
  simp [State.command, Engine.busy, he, hp, hwf]

/-- Settles O16: the build has CALC_OFS, and the acceptance faults because `ofs` is not below `len`. -/
theorem calcOfsFaultsAtAcceptance : Obligations.CalcOfsFaultsAtAcceptance := fun _ _ _ _ _ hidle hle =>
  (State.command_accept hidle rfl _).trans (if_pos hle)

/-- An idle engine accepts every command that the build has, if the source of a COPY is READY and the offset of CALC_OFS
is below its length; it is BUSY then, with both status bits kept (60_exceptions.md R167). -/
theorem exec_accepts {s : State} {e : Engine} {i : Instr} (hs : s.Inv) (hidle : s.IdlePort e)
    (hwf : i.wf s.build = true)
    (hsource : ∀ src, i = .copy src → (s.engines[src.toNat]?).map Engine.ready = some true)
    (hofs : ∀ ofs start len, i = .calculateOfs ofs start len → ofs.toNat < len.toNat) :
    ∃ e', exec i s = .next (s.setEngine s.port e') ∧ e'.phase ≠ .idle ∧
      e'.illegal = e.illegal ∧ e'.overrun = e.overrun := by
  cases i with
  | calculate start len =>
    have hi := State.engine_inv hs hidle.1
    have hready := Engine.ready_of_not_gen hi (by simp [hidle.2])
    obtain ⟨c, hc⟩ := Engine.xformBy_of_ready hi hready 0x00#8 start
    exact ⟨_, exec_calculate_of_idle hidle len hc, nofun, rfl, rfl⟩
  | calculateOfs ofs start len =>
    exact ⟨_, exec_calculateOfs_of_idle hidle start (hofs ofs start len rfl), nofun, rfl, rfl⟩
  | copy src =>
    obtain ⟨source, hget, hready⟩ := Option.map_eq_some_iff.mp (hsource src rfl)
    exact ⟨_, copyAccepted s e source src hidle (of_decide_eq_true hwf) hget hready, nofun, rfl, rfl⟩
  | testWr tidx tval =>
    obtain ⟨hhook, hspeed⟩ : s.build.testHook = true ∧ s.build.strategy = .speed := by simpa [Instr.wf] using hwf
    exact ⟨_, exec_testWr_of_idle hidle hhook hspeed tidx tval, nofun, rfl, rfl⟩

/-- Settles O13: BUSY, not in the build, COPY from a source that is not READY, CALC_OFS fault, accepted. -/
theorem commandPriority : Obligations.CommandPriority := by
  intro s e i hs he
  refine ⟨fun hp => exec_of_busy he hp i, fun hp hwf => exec_of_not_wf ⟨he, hp⟩ hwf,
    fun hp hwf => ⟨?unready, ?fault, exec_accepts hs ⟨he, hp⟩ hwf⟩⟩
  case unready =>
    rintro src rfl hsource
    obtain ⟨source, hget, hready⟩ := Option.map_eq_some_iff.mp hsource
    exact copyFromUnreadyIsIllegal s e source src ⟨he, hp⟩ (of_decide_eq_true hwf) hget hready
  case fault =>
    rintro ofs start len rfl hle
    exact calcOfsFaultsAtAcceptance s e ofs start len ⟨he, hp⟩ hle

end Sys2Proof.Machine

namespace Sys2Proof.Machine

/-! ### The race of a test write with a copy -/

/-- The test-write step writes the entry LTIDX of its engine's table (43_instance_ops.md R145). -/
theorem engineStep_twr {s : State} {k : Nat} {e : Engine} (he : s.engines[k]? = some e) (hp : e.phase = .twr) :
    engineStep k s =
      .next (s.setEngine k { e with lut := Memory.write e.lut e.ltidx.toNat e.ltval, phase := .idle }) :=
  engineStep_of_enabled he (State.enabledStep_twr hp)

/-- Settles O60: each step leaves the other engine waiting as it was, and the copy takes the source's table as it stands,
before the write or after it. -/
theorem copyRaceHasBothOutcomes : Obligations.CopyRaceHasBothOutcomes := by
  rintro s j k source e hspeed hjk hsource htwr hfull he hcopy rfl
  constructor
  · have hcopied := engineStep_copy_other he hcopy hspeed hjk hsource hfull
    have hwritten := engineStep_twr (engineStep_get_other hjk hsource hcopied) htwr
    exact ⟨_, _, runEvents_pair (ev := .engine k) (ev' := .engine _) hcopied hwritten,
      engineStep_get_other hjk.symm (State.setEngine_get_self he _) hwritten, rfl, rfl⟩
  · have hwritten := engineStep_twr hsource htwr
    have he' := engineStep_get_other hjk.symm he hwritten
    have hcopied := engineStep_copy_other he' hcopy hspeed hjk (State.setEngine_get_self hsource _)
      (hfull.write source.ltidx.toNat source.ltval)
    exact ⟨_, _, runEvents_pair (ev := .engine _) (ev' := .engine k) hwritten hcopied,
      State.setEngine_get_self he' _, rfl, Memory.read_write_same source.lut source.ltidx.toNat source.ltval⟩

/-! ### A scheduled reset -/

/-- Settles O34: the step is the scheduled reset, which replaces every engine, whatever its phase, and no other part of
the state. -/
theorem resetAbandonsOperations : Obligations.ResetAbandonsOperations := fun s sched hsched =>
  ⟨_, (stepIsOneEvent s).1 .reset sched hsched, List.map_const', rfl⟩

end Sys2Proof.Machine
